-- ==== Sys2Proof/Syntax.lean ====
section
/-!
DEFINITION. The five commands of the block, and the lines of the host script that name them.
-/

namespace Sys2Proof

/-- The commands, one per row of opcode_table.json. A command has no operand fields: its operands are whole
registers (30_encoding.md R90, R91). -/
inductive Instr where
  /-- `write(buffer, length)`, 40_polling_fsm.md R124. -/
  | write
  /-- `write_then_read(fill_value, output_buffer, length)`, 40_polling_fsm.md R126. -/
  | wtr
  /-- `encode(frame)`, 42_frame_codec.md R192. -/
  | encode
  /-- `decode(byte_source)`, 42_frame_codec.md R194. -/
  | decode
  /-- `resynchronize(window, window_length)`, 42_frame_codec.md R200. -/
  | resync
  deriving DecidableEq, Repr

/-- The registers by name (10_state.md R21). -/
inductive RegName where
  | cmd | status | ptr | len | fill | limit | res
  deriving DecidableEq, Repr

/-- The registers a `SET` line may name (30_encoding.md R98). -/
inductive SetName where
  | ptr | len | fill | limit
  deriving DecidableEq, Repr

/-- One line of a host script (30_encoding.md R98). -/
inductive ScriptLine where
  /-- `SET <reg>, <value>`. -/
  | set (r : SetName) (v : Nat)
  /-- `GET <reg>`. -/
  | get (r : RegName)
  /-- One of the five mnemonics. -/
  | command (i : Instr)
  /-- `CMD <value>`, for reserved opcodes. -/
  | cmd (v : Nat)
  /-- `POKE <addr>, <b0> <b1> ...`. -/
  | poke (addr : Nat) (bytes : List (BitVec 8))
  /-- `PEEK <addr>, <n>`. -/
  | peek (addr n : Nat)
  deriving DecidableEq, Repr

/-- The pseudo-instructions (30_encoding.md R99). -/
inductive Pseudo where
  | write (buf len : Nat)
  | wtr (fill buf len : Nat)
  | encode (frame : Nat)
  | decode (frame : Nat)
  | resync (win len : Nat)
  | outcome
  deriving DecidableEq, Repr

end Sys2Proof
end

