-- ==== Sys2Proof/Word.lean ====
section
/-!
DEFINITION. The words of the block: a byte, a 16-bit field, a 32-byte frame, and the two halves of a field.
-/

namespace Sys2Proof

/-- A byte, 8 bits (00_scope.md R4). -/
abbrev Byte := BitVec 8

/-- A 16-bit unsigned field of a frame (00_scope.md R4, `SLOT_W`). `+` and `-` on it are `+16` and `-16` of R7. -/
abbrev Half := BitVec 16

/-- The 32 bytes of a frame, `b[0]` first on the wire and at the lowest address (30_encoding.md R95). -/
abbrev Frame := Vector Byte 32

/-- `lo8(w) = w[7:0]` (00_scope.md R7). -/
def lo8 (w : Half) : Byte := w.extractLsb' 0 8

/-- `hi8(w) = w[15:8]` (00_scope.md R7). -/
def hi8 (w : Half) : Byte := w.extractLsb' 8 8

/-- `{hi, lo} = hi * 256 + lo` (00_scope.md R7). -/
def ofBytes (hi lo : Byte) : Half := hi ++ lo

end Sys2Proof
end

