-- ==== Sys2Proof/Config.lean ====
section
/-!
DEFINITION. What an implementation fixes (the constants of 00_scope.md R4, the open parameters of R5) and the free
answers of the environment (00_scope.md R6, R9).
-/

namespace Sys2Proof

/-- `HEADER = 0x4020` (00_scope.md R4). -/
def Config.header : Half := 0x4020

/-- `FRAME_LEN = 32` bytes (00_scope.md R4). -/
def Config.frameLen : Nat := 32

/-- A run of addresses `base .. base + size - 1` that hold buffer memory. -/
structure Region where
  base : Nat
  size : Nat
  deriving DecidableEq, Repr

/-- The parameters the source leaves to the implementation (00_scope.md R5). They are data, so that a statement
about every state is a statement about every choice of them. -/
structure Params where
  /-- `ADDR_W`: width of an address and of PTR, LEN, RES and IDX. -/
  addrW : Nat
  /-- `CNT_W`: width of LIMIT and CNT. -/
  cntW : Nat
  /-- `LIMIT_RESET`: the value of LIMIT after reset. -/
  limitReset : Nat
  /-- `MEM_VALID`: the addresses backed by buffer memory, as a list of regions. -/
  regions : List Region
  deriving DecidableEq, Repr

/-- DESIGN CHOICE (log 3, log 4), unsafe: the parameters `State.reset` is given. R5 gives them no value. These widths
are the least with which the vectors of 95_test_vectors.md make sense, LIMIT_RESET is 0 and every address holds memory.
No statement rests on these values. -/
def Config.resetParams : Params :=
  { addrW := 16, cntW := 8, limitReset := 0, regions := [{ base := 0, size := 65536 }] }

/-- What `ChSend` answers (00_scope.md R9). -/
inductive ChOutcome where
  | ok | channelError
  deriving DecidableEq, Repr, Inhabited

/-- What `ChRecv(32)` answers: exactly 32 bytes, or `channel-error` with no bytes (00_scope.md R9). -/
inductive RecvAnswer where
  | ok (bs : Frame)
  | channelError
  deriving DecidableEq, Repr, Inhabited

/-- DESIGN CHOICE (log 7), safe: the answer of `TxReady` in the draw numbered `n`; free, under no law (R6, R9). -/
opaque Config.drawTxReady (n : Nat) : Bool

/-- DESIGN CHOICE (log 7), safe: the answer of `TxComplete` in the draw numbered `n`; free. -/
opaque Config.drawTxComplete (n : Nat) : Bool

/-- DESIGN CHOICE (log 7), safe: the answer of `RxReady` in the draw numbered `n`; free. -/
opaque Config.drawRxReady (n : Nat) : Bool

/-- DESIGN CHOICE (log 7), safe: the byte `GetByte` answers in the draw numbered `n`; free. -/
opaque Config.drawGetByte (n : Nat) : Byte

/-- DESIGN CHOICE (log 7), safe: the answer of `ChSend` in the draw numbered `n`; free. -/
opaque Config.drawSend (n : Nat) : ChOutcome

/-- DESIGN CHOICE (log 7), safe: the answer of `ChRecv` in the draw numbered `n`; free. -/
opaque Config.drawRecv (n : Nat) : RecvAnswer

end Sys2Proof
end

