-- ==== Sys2Proof/WellFormed.lean ====
section
/-!
DEFINITION. Well-formedness. A command has no fields, so every command is well formed (30_encoding.md R90, R91); what
the spec constrains is the parameters (00_scope.md R5) and the fields of a region.
-/

namespace Sys2Proof

/-- Every command is well formed: there is no operand, immediate or mode to check (30_encoding.md R90). -/
def Instr.wellFormed : Instr → Bool
  | .write => true
  | .wtr => true
  | .encode => true
  | .decode => true
  | .resync => true

/-- The constraints of the table of 00_scope.md R5. -/
def Params.wellFormed (p : Params) : Bool :=
  decide (6 ≤ p.addrW) && decide (1 ≤ p.cntW) && decide (p.limitReset < 2 ^ p.cntW)

end Sys2Proof
end

