-- ==== Sys2Proof/Decode.lean ====
section
/-!
DEFINITION. The command format CMD8: the opcode map of 30_encoding.md R93, total on bytes, the reserved opcodes of R94
rejected by name, and the encoder.
-/

namespace Sys2Proof

/-- Why a byte is no command. -/
inductive DecodeError where
  /-- A reserved opcode, `0x00` or `0x06 .. 0xFF` (30_encoding.md R94). The host port answers it with
  `finish(ILLEGAL_COMMAND)`. -/
  | reservedOpcode (op : Byte)
  deriving DecidableEq, Repr

/-- The opcode map (30_encoding.md R93, R94). -/
def decode (op : Byte) : Except DecodeError Instr :=
  if op = 0x01 then .ok .write
  else if op = 0x02 then .ok .wtr
  else if op = 0x03 then .ok .encode
  else if op = 0x04 then .ok .decode
  else if op = 0x05 then .ok .resync
  else .error (.reservedOpcode op)

/-- `trunc_8(v)`, the opcode of a value written to CMD (30_encoding.md R93). -/
def opcodeOf (v : Nat) : Byte := BitVec.ofNat 8 v

/-- The one word of a command (30_encoding.md R90, R93). -/
def encode : Instr → Byte
  | .write => 0x01
  | .wtr => 0x02
  | .encode => 0x03
  | .decode => 0x04
  | .resync => 0x05

/-- The bytes of a command: always exactly one (30_encoding.md R90). -/
def encodeBytes (i : Instr) : List Byte := [encode i]

/-- What the decoder reads from the first `nbits` bits of `w`. A command is one byte (R90), so only bits 7:0 are
looked at. -/
def decodeTableWord (nbits w : Nat) : Option Instr :=
  match decode (opcodeOf (w % 2 ^ nbits)) with
  | .ok i => some i
  | .error _ => none

end Sys2Proof
end

