-- ==== Sys2Proof/Machine/Checksum.lean ====
section
/-!
DEFINITION. The pure functions of the checksum validator, the field unmarshaller (41_checksum_validator.md) and the
frame boundary detector (42_frame_codec.md R191).
-/

namespace Sys2Proof.Machine

/-- The fields of a frame, as the unmarshaller gives them (41_checksum_validator.md R166). -/
structure Fields where
  hdr : Half
  slot : Vector Half 14
  chk : Half
  deriving DecidableEq, Repr

/-- `Field(bs, k) = bs[2k] + 256 * bs[2k+1]` (41_checksum_validator.md R165). -/
def field (bs : Frame) (k : Fin 16) : Half := ofBytes bs[2 * k.val + 1] bs[2 * k.val]

/-- `Unmarshal(bs)` (41_checksum_validator.md R166). -/
def unmarshal (bs : Frame) : Fields :=
  { hdr := field bs 0
    slot := Vector.ofFn fun n : Fin 14 => field bs ⟨n.val + 1, by omega⟩
    chk := field bs 15 }

/-- The field numbered `k` of a triple: the header, slot `k - 1`, or the trailer (30_encoding.md R95). -/
def fieldOf (t : Fields) (k : Fin 16) : Half :=
  if k.val = 0 then t.hdr
  else if h : k.val < 15 then t.slot[k.val - 1]'(by omega)
  else t.chk

/-- `Marshal(hdr, slot, chk)`: `lo8` of field `k` at byte `2k`, `hi8` at byte `2k + 1` (41_checksum_validator.md R167,
30_encoding.md R96). -/
def marshal (t : Fields) : Frame :=
  Vector.ofFn fun j : Fin 32 =>
    let w := fieldOf t ⟨j.val / 2, by omega⟩
    if j.val % 2 = 0 then lo8 w else hi8 w

/-- `Sum16(bs)`: the fields 0 to 14 added modulo 65536 (41_checksum_validator.md R160). -/
def sum16 (bs : Frame) : Half :=
  (List.finRange 15).foldl (fun s k => s + field bs k.castSucc) 0

/-- `Checksum(bs) = 0xFFFF -16 Sum16(bs)` (41_checksum_validator.md R162). -/
def checksum (bs : Frame) : Half := 0xFFFF - sum16 bs

/-- `FrameValid(bs)` (41_checksum_validator.md R168). The header is summed as observed and never compared (R170). -/
def frameValid (bs : Frame) : Bool := checksum bs == field bs 15

/-- `FindHeader(w, n)`: the least offset at which `20 40` stands (42_frame_codec.md R191). -/
def findHeader (w : List Byte) : Option Nat :=
  match w with
  | a :: b :: rest =>
    if a = 0x20 ∧ b = 0x40 then some 0 else (findHeader (b :: rest)).map (· + 1)
  | _ => none

end Sys2Proof.Machine
end

