-- ==== Sys2Proof/Machine/State.lean ====
section
/-!
DEFINITION. The state of the machine as plain data: the block's registers and hidden state (10_state.md R20), the
buffer memory (R37), and the surroundings of an execution (R42): parameters, event trace, inputs, environment.
-/

namespace Sys2Proof.Machine

/-- The outcome codes, the legal values of STATUS.OUTCOME (10_state.md R29). -/
inductive OutcomeCode where
  /-- 0: no command has completed since reset. -/
  | none
  /-- 1: the command did all it is specified to do. -/
  | ok
  /-- 2: a wait was exhausted (60_exceptions.md R231). -/
  | timeout
  /-- 3: the channel answered channel-error (60_exceptions.md R232). -/
  | channelError
  /-- 4: a received frame failed the check (60_exceptions.md R233). -/
  | malformed
  /-- 5: null buffer or zero length (60_exceptions.md R234). -/
  | invalidArgument
  /-- 6: RESYNC found no header pair (60_exceptions.md R235). -/
  | notFound
  /-- 7: a reserved opcode was written to CMD (60_exceptions.md R235). -/
  | illegalCommand
  deriving DecidableEq, Repr

/-- The hidden sequencing state (10_state.md R30). -/
inductive Fsm where
  /-- No command in progress. -/
  | idle
  /-- WRITE: the `TxReady` wait (40_polling_fsm.md R130). -/
  | wTxRdy
  /-- WRITE: the put (R130). -/
  | wPut
  /-- WRITE: the `TxComplete` wait (R130). -/
  | wTxc
  /-- WTR: the put of the fill byte (R130). -/
  | rPut
  /-- WTR: the `RxReady` wait (R130). -/
  | rRxRdy
  /-- WTR: the get and the store (R130). -/
  | rGet
  /-- DECODE: until `ChRecv` answers (42_frame_codec.md R196). -/
  | awaitingHeader
  /-- DECODE: while `FrameValid` is evaluated (R196). -/
  | validatingChecksum
  /-- DECODE: the end `finish(OK)` (R196). -/
  | accepted
  /-- DECODE: the end `finish(MALFORMED)` (R196). -/
  | rejected
  /-- DECODE: the end `finish(CHANNEL_ERROR)` (R196). -/
  | channelError
  /-- ENCODE: before the low header byte. DESIGN CHOICE (log 9): the spec names no step of ENCODE. -/
  | eHeaderLo
  /-- ENCODE: before the high header byte. DESIGN CHOICE (log 9). -/
  | eHeaderHi
  /-- ENCODE: before the sum and the low trailer byte. DESIGN CHOICE (log 9). -/
  | eTrailerLo
  /-- ENCODE: before the high trailer byte. DESIGN CHOICE (log 9). -/
  | eTrailerHi
  /-- ENCODE: before the send. DESIGN CHOICE (log 9). -/
  | eSend
  /-- RESYNC: before the pair at offset IDX is tested. DESIGN CHOICE (log 9): the spec names no step of RESYNC. -/
  | sScan
  deriving DecidableEq, Repr

/-- The buffer memory MEM (10_state.md R37), as the list of the bytes that have been written. -/
abbrev Mem := List Host.Cell

/-- The three status predicates (00_scope.md R9). -/
inductive Pred where
  | txReady | txComplete | rxReady
  deriving DecidableEq, Repr

/-- The events of the trace (00_scope.md R10). -/
inductive Event where
  | txrdy (r : Bool)
  | txc (r : Bool)
  | rxrdy (r : Bool)
  | put (b : Byte)
  | get (b : Byte)
  | send (bs : Frame) (o : ChOutcome)
  | recv (a : RecvAnswer)
  deriving DecidableEq, Repr

/-- The environment: for each call the answers it gives next, in the order asked; once a list is used up, the free
answers of Config numbered from `drawn` (00_scope.md R6, R9; DESIGN CHOICE, log 7). -/
structure Env where
  txReady : List Bool
  txComplete : List Bool
  rxReady : List Bool
  getByte : List Byte
  send : List ChOutcome
  recv : List RecvAnswer
  drawn : Nat
  deriving DecidableEq, Repr

/-- What acts on the block from outside, one step each: HOST's bus actions (30_encoding.md R98) and the platform's
reset (70_reset_and_hazards.md R260, R263). -/
inductive Action where
  /-- `W n v`: `HostWrite(n, v)`. With `n = 0` it runs a whole command. -/
  | write (n v : Nat)
  /-- `R n`: `HostRead(n)`. -/
  | read (n : Nat)
  /-- `M addr b0 b1 ...`: HOST stores bytes into MEM. -/
  | poke (addr : Nat) (bytes : List Byte)
  /-- `L addr n`: HOST reads `n` bytes of MEM. -/
  | peek (addr n : Nat)
  /-- Reset while no command runs (R260, R261). -/
  | reset
  /-- `W 0 v`, and the platform asserts reset after `k` steps of the command's state table (R263; log 10). -/
  | cmdThenReset (v k : Nat)
  deriving DecidableEq, Repr

/-- What a read of HOST answered. -/
inductive Reading where
  /-- `HostRead(n)` answered `v` (10_state.md R21). -/
  | reg (n v : Nat)
  /-- `PEEK addr` answered these bytes; `none` for a byte that holds no value (log 13). -/
  | bytes (addr : Nat) (bs : List (Option Byte))
  deriving DecidableEq, Repr

/-- The state. PTR, LEN, RES, IDX, LIMIT and CNT are unsigned numbers whose widths are the parameters `cfg.addrW` and
`cfg.cntW`; a host write truncates to the width and `Inv` of Safety.lean bounds them (DEDUCED, log 12). -/
@[ext]
structure State where
  /-- The open parameters (00_scope.md R5); no step changes them. -/
  cfg : Params
  /-- STATUS.OUTCOME (10_state.md R28). -/
  outcome : OutcomeCode
  /-- PTR (10_state.md R22). -/
  ptr : Nat
  /-- LEN (10_state.md R23). -/
  len : Nat
  /-- FILL (10_state.md R24). -/
  fill : Byte
  /-- LIMIT (10_state.md R25). -/
  limit : Nat
  /-- RES (10_state.md R26). -/
  res : Nat
  /-- FSM, hidden (10_state.md R30). -/
  fsm : Fsm
  /-- CNT, hidden (10_state.md R31). -/
  cnt : Nat
  /-- IDX, hidden (10_state.md R32). -/
  idx : Nat
  /-- MEM (10_state.md R37). -/
  mem : Mem
  /-- The event trace T (00_scope.md R10). -/
  trace : List Event
  /-- The environment's answers (00_scope.md R9). -/
  env : Env
  /-- The inputs still to come, HOST's next action first (10_state.md R33). -/
  script : List Action
  /-- What HOST has read so far, oldest first. -/
  seen : List Reading
  deriving DecidableEq, Repr

/-- The block has no exception, trap or fault mechanism (60_exceptions.md R230), and 93_implementation_defined.md
treats no behaviour as a fault: no constructor, so no step ever ends in a fault. -/
inductive Fault where
  deriving DecidableEq, Repr

/-- The situations to which the spec gives no meaning. -/
inductive Refusal where
  /-- An instruction without a meaning yet. Raised by no arm of exec. Safe. -/
  | notModelled (mnemonic : String)
  /-- A command with valid arguments whose extent passes the top of the address space or holds an address without
  MEM_VALID (20_memory.md R64, R68; 93_implementation_defined.md U3, U4). Raised at entry by every command. Safe. -/
  | illegalExtent
  /-- A command reads a byte of MEM that nothing has written (70_reset_and_hazards.md R262;
  93_implementation_defined.md U8). Raised by WRITE, ENCODE and RESYNC. Safe. -/
  | unwrittenByte
  /-- HOST pokes or peeks an address that holds no memory (10_state.md R37, 00_scope.md R5; log 14). Raised by the
  host port, never by a command. Safe. -/
  | hostAddress
  deriving DecidableEq, Repr

/-- The three outcomes of a step of this machine. -/
abbrev Result := Host.Outcome State Fault Refusal

/-- The machine right after power-on with parameters `p`: the table of 10_state.md R41, MEM with no byte written
(70_reset_and_hazards.md R262), the trace empty (00_scope.md R10); no input and no answer is supplied yet (log 2,
log 7). -/
def State.resetWith (p : Params) : State :=
  { cfg := p
    outcome := .none
    ptr := 0
    len := 0
    fill := 0
    limit := p.limitReset
    res := 0
    fsm := .idle
    cnt := 0
    idx := 0
    mem := []
    trace := []
    env :=
      { txReady := [], txComplete := [], rxReady := [], getByte := [], send := [], recv := [], drawn := 0 }
    script := []
    seen := [] }

/-- The machine right after reset (10_state.md R41), with the parameters of Config (DESIGN CHOICE, log 3, log 4). -/
def State.reset : State := State.resetWith Config.resetParams

end Sys2Proof.Machine
end

