-- ==== Sys2Proof/Machine/Ops.lean ====
section
/-!
DEFINITION. The named operations: memory, environment calls, the bounded poll, `finish` (which stands where other
machines take an exception and return from one), and what reset does to the block.
-/

namespace Sys2Proof.Machine

/-- Go on with `f` when the outcome is a next state. -/
def onNext (r : Result) (f : State → Result) : Result :=
  match r with
  | .next s => f s
  | .fault e => .fault e
  | .refused e => .refused e

/-! ## Named updates -/

/-- `CNT <- c`. -/
def State.setCnt (s : State) (c : Nat) : State := { s with cnt := c }

/-- `IDX <- i`. -/
def State.setIdx (s : State) (i : Nat) : State := { s with idx := i }

/-- The next value of FSM. -/
def State.setFsm (s : State) (f : Fsm) : State := { s with fsm := f }

/-- `RES <- a`. -/
def State.setRes (s : State) (a : Nat) : State := { s with res := a }

/-- MEM after the block's own writes. -/
def State.setMem (s : State) (m : Mem) : State := { s with mem := m }

/-- The environment has moved on to `e`, and the events `es` are appended to the trace (00_scope.md R10). -/
def State.heard (s : State) (e : Env) (es : List Event) : State := { s with env := e, trace := s.trace ++ es }

/-! ## Memory -/

/-- The canonical form: addresses strictly rising. An unlisted byte holds no value, so no entry can equal what an
unlisted address reads as. -/
abbrev Mem.wf (m : Mem) : Prop := m.Pairwise fun x y => x.1 < y.1

/-- `MEM[a]`; `none` for a byte that nothing has written, which holds no value (70_reset_and_hazards.md R262). -/
def Mem.read (m : Mem) (a : Nat) : Option Byte :=
  match m with
  | [] => none
  | (k, b) :: rest => if k = a then some b else Mem.read rest a

/-- `MEM[a] <- b` (20_memory.md R61). -/
def Mem.write (m : Mem) (a : Nat) (b : Byte) : Mem :=
  match m with
  | [] => [(a, b)]
  | (k, c) :: rest =>
    if a < k then (a, b) :: (k, c) :: rest
    else if a = k then (a, b) :: rest
    else (k, c) :: Mem.write rest a b

/-- `MemWrite(a, n, bs)`: ascending address order (20_memory.md R61). -/
def Mem.writeBytes (m : Mem) (a : Nat) (bs : List Byte) : Mem :=
  match bs with
  | [] => m
  | b :: rest => Mem.writeBytes (m.write a b) (a + 1) rest

/-- `MemRead16(a)`, little-endian (20_memory.md R62). -/
def Mem.read16 (m : Mem) (a : Nat) : Option Half :=
  match m.read a, m.read (a + 1) with
  | some lo, some hi => some (ofBytes hi lo)
  | _, _ => none

/-- `MemWrite16(a, w)`, little-endian (20_memory.md R62). -/
def Mem.write16 (m : Mem) (a : Nat) (w : Half) : Mem :=
  (m.write a (lo8 w)).write (a + 1) (hi8 w)

/-- The `n` bytes from `a` upward, each with its value if it holds one. -/
def Mem.readBytes (m : Mem) (a n : Nat) : List (Option Byte) :=
  (List.range n).map fun j => m.read (a + j)

/-- `MemRead(a, 32)`, the frame record at `a` (41_checksum_validator.md R164), if each of its bytes holds a value. -/
def Mem.readFrame (m : Mem) (a : Nat) : Option Frame :=
  if (m.readBytes a 32).all Option.isSome then
    some (Vector.ofFn fun j : Fin 32 => (m.read (a + j.val)).getD 0)
  else none

/-- MEM_VALID(a) (00_scope.md R5). -/
def memValid (p : Params) (a : Nat) : Bool :=
  p.regions.any fun r => decide (r.base ≤ a) && decide (a < r.base + r.size)

/-- `a` is an address of MEM that holds memory (10_state.md R37, 00_scope.md R5). -/
def isMemory (p : Params) (a : Nat) : Bool :=
  decide (a < 2 ^ p.addrW) && memValid p a

/-! ## Environment calls (00_scope.md R9) -/

/-- The event a poll of `p` appends (00_scope.md R10). -/
def Pred.event (p : Pred) (r : Bool) : Event :=
  match p with
  | .txReady => .txrdy r
  | .txComplete => .txc r
  | .rxReady => .rxrdy r

/-- The answers `p` gives next. -/
def Env.answers (e : Env) (p : Pred) : List Bool :=
  match p with
  | .txReady => e.txReady
  | .txComplete => e.txComplete
  | .rxReady => e.rxReady

/-- The environment with the answers of `p` replaced. -/
def Env.withAnswers (e : Env) (p : Pred) (l : List Bool) : Env :=
  match p with
  | .txReady => { e with txReady := l }
  | .txComplete => { e with txComplete := l }
  | .rxReady => { e with rxReady := l }

/-- The free answer of `p` in the draw numbered `n` (log 7). -/
def Pred.draw (p : Pred) (n : Nat) : Bool :=
  match p with
  | .txReady => Config.drawTxReady n
  | .txComplete => Config.drawTxComplete n
  | .rxReady => Config.drawRxReady n

/-- One answer of `p`: the next of its list, else a fresh free answer. -/
def Env.nextPred (e : Env) (p : Pred) : Bool × Env :=
  match e.answers p with
  | r :: rest => (r, e.withAnswers p rest)
  | [] => (p.draw e.drawn, { e with drawn := e.drawn + 1 })

/-- One answer of `GetByte`. -/
def Env.nextByte (e : Env) : Byte × Env :=
  match e.getByte with
  | b :: rest => (b, { e with getByte := rest })
  | [] => (Config.drawGetByte e.drawn, { e with drawn := e.drawn + 1 })

/-- One answer of `ChSend`. -/
def Env.nextSend (e : Env) : ChOutcome × Env :=
  match e.send with
  | o :: rest => (o, { e with send := rest })
  | [] => (Config.drawSend e.drawn, { e with drawn := e.drawn + 1 })

/-- One answer of `ChRecv`. -/
def Env.nextRecv (e : Env) : RecvAnswer × Env :=
  match e.recv with
  | a :: rest => (a, { e with recv := rest })
  | [] => (Config.drawRecv e.drawn, { e with drawn := e.drawn + 1 })

/-- One poll: ask `p`, record the answer. -/
def ask (p : Pred) (s : State) : Bool × State :=
  match s.env.nextPred p with
  | (r, e) => (r, s.heard e [p.event r])

/-- `PutByte(b)`. -/
def putByte (b : Byte) (s : State) : State := s.heard s.env [.put b]

/-- `GetByte()`. -/
def getByte (s : State) : Byte × State :=
  match s.env.nextByte with
  | (b, e) => (b, s.heard e [.get b])

/-- `ChSend(bs)`. -/
def chSend (bs : Frame) (s : State) : ChOutcome × State :=
  match s.env.nextSend with
  | (o, e) => (o, s.heard e [.send bs o])

/-- `ChRecv(32)`. -/
def chRecv (s : State) : RecvAnswer × State :=
  match s.env.nextRecv with
  | (a, e) => (a, s.heard e [.recv a])

/-! ## The bounded poll (40_polling_fsm.md R120) -/

/-- What a wait returns. -/
inductive PollResult where
  | ready | timeout
  deriving DecidableEq, Repr

/-- The loop of `Poll(p)` with `n = LIMIT - CNT` polls left: `n = 0` is the test `CNT == LIMIT`. -/
def pollLoop (p : Pred) (n : Nat) (s : State) : PollResult × State :=
  match n with
  | 0 => (.timeout, s)
  | n + 1 =>
    match ask p s with
    | (true, t) => (.ready, t)
    | (false, t) => pollLoop p n (t.setCnt (t.cnt + 1))

/-- `Poll(p)`: one wait, of at most LIMIT polls; CNT is cleared at its start (40_polling_fsm.md R120, R123). -/
def poll (p : Pred) (s : State) : PollResult × State :=
  pollLoop p s.limit (s.setCnt 0)

/-! ## The end of a command, and reset -/

/-- `finish(o)`, the block's only entry and return mechanism (60_exceptions.md R236): OUTCOME is written, the hidden
state returns to idle, HOST is released. -/
def State.finish (s : State) (o : OutcomeCode) : State :=
  { s with outcome := o, fsm := .idle, cnt := 0, idx := 0 }

/-- What reset does: the block's own state takes the values of 10_state.md R41 (70_reset_and_hazards.md R261); MEM,
the environment and the trace are untouched (R262). -/
def State.blockReset (s : State) : State :=
  { s with
    outcome := .none
    ptr := 0
    len := 0
    fill := 0
    limit := s.cfg.limitReset
    res := 0
    fsm := .idle
    cnt := 0
    idx := 0 }

end Sys2Proof.Machine
end

