-- ==== Sys2Proof/Machine/Operands.lean ====
section
/-!
DEFINITION. The operands of a command: whole registers, read at the CMD write (30_encoding.md R91). What is tested
before anything else a command does: the argument check (60_exceptions.md R234) and the extent (20_memory.md R64).
-/

namespace Sys2Proof.Machine

/-- The condition for INVALID_ARGUMENT (the table of 60_exceptions.md R234). -/
def argInvalid (i : Instr) (s : State) : Bool :=
  match i with
  | .write => decide (s.ptr = 0) || decide (s.len = 0)
  | .wtr => decide (s.ptr = 0) || decide (s.len = 0)
  | .encode => decide (s.ptr = 0)
  | .decode => decide (s.ptr = 0)
  | .resync => decide (s.ptr = 0) || decide (s.len = 0)

/-- How many bytes the extent of a command has (20_memory.md R67). -/
def extentLen (i : Instr) (s : State) : Nat :=
  match i with
  | .write => s.len
  | .wtr => s.len
  | .encode => Config.frameLen
  | .decode => Config.frameLen
  | .resync => s.len

/-- The extent is legal: it does not pass the top of the address space, computed without truncation, and every
address of it holds memory (20_memory.md R64). -/
def legalExtent (i : Instr) (s : State) : Bool :=
  decide (s.ptr + extentLen i s - 1 < 2 ^ s.cfg.addrW) &&
    (List.range (extentLen i s)).all fun j => memValid s.cfg (s.ptr + j)

/-- The end of a command with invalid arguments: `STATUS.OUTCOME <- 5` and, for RESYNC, `RES <- 0`
(60_exceptions.md R234). -/
def rejectArgs (i : Instr) (s : State) : State :=
  match i with
  | .write => s.finish .invalidArgument
  | .wtr => s.finish .invalidArgument
  | .encode => s.finish .invalidArgument
  | .decode => s.finish .invalidArgument
  | .resync => (s.setRes 0).finish .invalidArgument

/-- The entry of every command (60_exceptions.md R237): the argument check first, then the extent, then `body`. -/
def enter (i : Instr) (s : State) (body : Result) : Result :=
  if argInvalid i s then .next (rejectArgs i s)
  else if legalExtent i s then body
  else .refused .illegalExtent

end Sys2Proof.Machine
end

