-- ==== Sys2Proof/Machine/Codec.lean ====
section
/-!
DEFINITION. The frame codec commands ENCODE and DECODE and the frame boundary detector RESYNC (42_frame_codec.md).
-/

namespace Sys2Proof.Machine

/-- The loop of ENCODE over the field numbers `ks`: `s <- s +16 MemRead16(a + 2*k)` (42_frame_codec.md R192). -/
def sumRecord (m : Mem) (a : Nat) (ks : List Nat) (acc : Half) : Option Half :=
  match ks with
  | [] => some acc
  | k :: rest =>
    match m.read16 (a + 2 * k) with
    | none => none
    | some w => sumRecord m a rest (acc + w)

/-- The trailer ENCODE computes from the record at `a`: `0xFFFF` minus the fields 0 to 14 (42_frame_codec.md R192). -/
def recordTrailer (m : Mem) (a : Nat) : Option Half :=
  match sumRecord m a (List.range 15) 0 with
  | none => none
  | some sum => some (0xFFFF - sum)

/-- The transformation of ENCODE on the record at `a`: the header, then the trailer, then the 32 bytes to send
(42_frame_codec.md R192). `none` when a byte it reads holds no value. -/
def encodeRecord (m : Mem) (a : Nat) : Option (Mem × Frame) :=
  match recordTrailer (m.write16 a Config.header) a with
  | none => none
  | some c =>
    match ((m.write16 a Config.header).write16 (a + 30) c).readFrame a with
    | none => none
    | some bs => some ((m.write16 a Config.header).write16 (a + 30) c, bs)

/-- The send of ENCODE and its end (42_frame_codec.md R192). -/
def sendRecord (bs : Frame) (s : State) : State :=
  match chSend bs s with
  | (.ok, t) => t.finish .ok
  | (.channelError, t) => t.finish .channelError

/-- ENCODE after its entry: the transformation, one send, its outcome (42_frame_codec.md R192). -/
def encodeBody (s : State) : Result :=
  match encodeRecord s.mem s.ptr with
  | none => .refused .unwrittenByte
  | some (m, bs) => .next (sendRecord bs (s.setMem m))

/-- ENCODE (42_frame_codec.md R192). -/
def execEncode (s : State) : Result := enter .encode s (encodeBody s)

/-- DECODE after its entry: one receive; on ok the bytes are stored, then validated (42_frame_codec.md R194). -/
def decodeBody (s : State) : Result :=
  match chRecv s with
  | (.channelError, t) => .next (t.finish .channelError)
  | (.ok bs, t) =>
    .next ((t.setMem (t.mem.writeBytes t.ptr bs.toList)).finish (if frameValid bs then .ok else .malformed))

/-- DECODE (42_frame_codec.md R194). -/
def execDecode (s : State) : Result := enter .decode s (decodeBody s)

/-- What the test of one pair says. -/
inductive PairTest where
  | isHeader | isNot | unwritten
  deriving DecidableEq, Repr

/-- Test the pair at `a` against the header bytes, low byte first (42_frame_codec.md R200). The second byte is read
only when the first is `0x20` (DESIGN CHOICE, log 11; R200 corner case i allows it). -/
def testPair (m : Mem) (a : Nat) : PairTest :=
  match m.read a with
  | none => .unwritten
  | some b0 =>
    if b0 = 0x20 then
      match m.read (a + 1) with
      | none => .unwritten
      | some b1 => if b1 = 0x40 then .isHeader else .isNot
    else .isNot

/-- The scan of RESYNC with `n` offsets still to test, `i` in IDX (42_frame_codec.md R200). -/
def scanLoop (n : Nat) (s : State) : Result :=
  match n with
  | 0 => .next ((s.setRes 0).finish .notFound)
  | n + 1 =>
    match testPair s.mem (s.ptr + s.idx) with
    | .unwritten => .refused .unwrittenByte
    | .isHeader => .next ((s.setRes (s.ptr + s.idx)).finish .ok)
    | .isNot => scanLoop n (s.setIdx (s.idx + 1))

/-- RESYNC: the offsets `0 .. LEN-2` (42_frame_codec.md R200). -/
def execResync (s : State) : Result :=
  enter .resync s (scanLoop (s.len - 1) (s.setIdx 0))

end Sys2Proof.Machine
end

