-- ==== Sys2Proof/Machine/Transport.lean ====
section
/-!
DEFINITION. The commands of the timeout/retry counter and polling FSM: WRITE and WTR (40_polling_fsm.md).
-/

namespace Sys2Proof.Machine

/-- The loop of WRITE with `n` bytes still to send, `i` in IDX (40_polling_fsm.md R124). The byte is read after the
`TxReady` wait, immediately before the put (R124 corner case e). -/
def sendLoop (n : Nat) (s : State) : Result :=
  match n with
  | 0 => .next (s.finish .ok)
  | n + 1 =>
    match poll .txReady s with
    | (.timeout, s1) => .next (s1.finish .timeout)
    | (.ready, s1) =>
      match s1.mem.read (s1.ptr + s1.idx) with
      | none => .refused .unwrittenByte
      | some b =>
        match poll .txComplete (putByte b s1) with
        | (.timeout, s2) => .next (s2.finish .timeout)
        | (.ready, s2) => sendLoop n (s2.setIdx (s2.idx + 1))

/-- WRITE (40_polling_fsm.md R124). -/
def execWrite (s : State) : Result :=
  enter .write s (sendLoop s.len (s.setIdx 0))

/-- The loop of WTR with `n` bytes still to receive, `i` in IDX (40_polling_fsm.md R126). -/
def recvLoop (n : Nat) (s : State) : Result :=
  match n with
  | 0 => .next (s.finish .ok)
  | n + 1 =>
    match poll .rxReady (putByte s.fill s) with
    | (.timeout, s1) => .next (s1.finish .timeout)
    | (.ready, s1) =>
      match getByte s1 with
      | (b, s2) => recvLoop n ((s2.setMem (s2.mem.write (s2.ptr + s2.idx) b)).setIdx (s2.idx + 1))

/-- WTR (40_polling_fsm.md R126). -/
def execWtr (s : State) : Result :=
  enter .wtr s (recvLoop s.len (s.setIdx 0))

end Sys2Proof.Machine
end

