-- ==== Sys2Proof/Machine/Dispatch.lean ====
section
/-!
DEFINITION. The meaning of every command, one arm per constructor.
-/

namespace Sys2Proof.Machine

def exec (i : Instr) (s : State) : Host.Outcome State Fault Refusal :=
  match i with
  | .write => Sys2Proof.Machine.execWrite s
  | .wtr => Sys2Proof.Machine.execWtr s
  | .encode => Sys2Proof.Machine.execEncode s
  | .decode => Sys2Proof.Machine.execDecode s
  | .resync => Sys2Proof.Machine.execResync s

end Sys2Proof.Machine
end

