-- ==== Sys2Proof/Machine/Flags.lean ====
section
/-!
DEFINITION. The status the block leaves: the numeric outcome codes and the STATUS register. The block has no carry,
zero, overflow or other condition flag (10_state.md R39).
-/

namespace Sys2Proof.Machine

/-- The 3-bit code of an outcome (10_state.md R29). -/
def OutcomeCode.code (o : OutcomeCode) : BitVec 3 :=
  match o with
  | .none => 0
  | .ok => 1
  | .timeout => 2
  | .channelError => 3
  | .malformed => 4
  | .invalidArgument => 5
  | .notFound => 6
  | .illegalCommand => 7

/-- STATUS: OUTCOME in bits 2:0, bits 7:3 hardwired 0 (10_state.md R28). -/
def State.status (s : State) : BitVec 8 := s.outcome.code.setWidth 8

end Sys2Proof.Machine
end

