-- ==== Sys2Proof/Machine/Fsm.lean ====
section
/-!
DEFINITION. The state tables: the polling FSM (40_polling_fsm.md R130), the decode state machine (42_frame_codec.md
R196), and the steps of ENCODE and RESYNC under names of the model's own (DESIGN CHOICE, log 9). A command may be
abandoned between two rows by reset (70_reset_and_hazards.md R263).
-/

namespace Sys2Proof.Machine

/-- The rows of IDLE: what the CMD write of a command does (40_polling_fsm.md R130, 42_frame_codec.md R196). -/
def fsmStart (i : Instr) (s : State) : Result :=
  match i with
  | .write => enter .write s (.next (((s.setIdx 0).setCnt 0).setFsm .wTxRdy))
  | .wtr => enter .wtr s (.next ((s.setIdx 0).setFsm .rPut))
  | .encode => enter .encode s (.next (s.setFsm .eHeaderLo))
  | .decode => enter .decode s (.next (s.setFsm .awaitingHeader))
  | .resync => enter .resync s (.next ((s.setIdx 0).setFsm .sScan))

/-- A row that polls `p`: time out when `CNT == LIMIT`, else ask; `yes` on true, count on false (R130). -/
def pollRow (p : Pred) (s : State) (yes : State → State) : State :=
  if s.cnt = s.limit then s.finish .timeout
  else
    match ask p s with
    | (true, t) => yes t
    | (false, t) => t.setCnt (t.cnt + 1)

/-- The row W_PUT: `PutByte(MEM[PTR + IDX]); CNT <- 0` (R130). -/
def rowPut (s : State) : Result :=
  match s.mem.read (s.ptr + s.idx) with
  | none => .refused .unwrittenByte
  | some b => .next (((putByte b s).setCnt 0).setFsm .wTxc)

/-- What W_TXC does once `TxComplete()` answered true (R130). -/
def rowSent (s : State) : State :=
  if s.idx + 1 = s.len then s.finish .ok else ((s.setIdx (s.idx + 1)).setCnt 0).setFsm .wTxRdy

/-- The row R_GET: `MEM[PTR + IDX] <- GetByte()`, then the end or the next position (R130). -/
def rowGet (s : State) : State :=
  match getByte s with
  | (b, t) =>
    if t.idx + 1 = t.len then (t.setMem (t.mem.write (t.ptr + t.idx) b)).finish .ok
    else ((t.setMem (t.mem.write (t.ptr + t.idx) b)).setIdx (t.idx + 1)).setFsm .rPut

/-- The row AWAITING_HEADER (42_frame_codec.md R196). -/
def rowRecv (s : State) : State :=
  match chRecv s with
  | (.channelError, t) => t.setFsm .channelError
  | (.ok bs, t) => (t.setMem (t.mem.writeBytes t.ptr bs.toList)).setFsm .validatingChecksum

/-- The row VALIDATING_CHECKSUM (42_frame_codec.md R196). The bytes received are the bytes the record now holds
(20_memory.md R66), so they are read back from MEM. -/
def rowValidate (s : State) : Result :=
  match s.mem.readFrame s.ptr with
  | none => .refused .unwrittenByte
  | some bs => .next (s.setFsm (if frameValid bs then .accepted else .rejected))

/-- A trailer byte of ENCODE: `part` of the trailer is stored at offset `j` (42_frame_codec.md R192; log 9). -/
def rowTrailer (part : Half → Byte) (j : Nat) (next : Fsm) (s : State) : Result :=
  match recordTrailer s.mem s.ptr with
  | none => .refused .unwrittenByte
  | some c => .next ((s.setMem (s.mem.write (s.ptr + j) (part c))).setFsm next)

/-- The send of ENCODE (42_frame_codec.md R192; log 9). -/
def rowSend (s : State) : Result :=
  match s.mem.readFrame s.ptr with
  | none => .refused .unwrittenByte
  | some bs => .next (sendRecord bs s)

/-- One offset of RESYNC (42_frame_codec.md R200; log 9). -/
def rowScan (s : State) : Result :=
  if s.idx + 1 = s.len then .next ((s.setRes 0).finish .notFound)
  else
    match testPair s.mem (s.ptr + s.idx) with
    | .unwritten => .refused .unwrittenByte
    | .isHeader => .next ((s.setRes (s.ptr + s.idx)).finish .ok)
    | .isNot => .next (s.setIdx (s.idx + 1))

/-- One row of the tables. An idle block does nothing (70_reset_and_hazards.md R261). -/
def fsmStep (s : State) : Result :=
  match s.fsm with
  | .idle => .next s
  | .wTxRdy => .next (pollRow .txReady s fun t => t.setFsm .wPut)
  | .wPut => rowPut s
  | .wTxc => .next (pollRow .txComplete s rowSent)
  | .rPut => .next (((putByte s.fill s).setCnt 0).setFsm .rRxRdy)
  | .rRxRdy => .next (pollRow .rxReady s fun t => t.setFsm .rGet)
  | .rGet => .next (rowGet s)
  | .awaitingHeader => .next (rowRecv s)
  | .validatingChecksum => rowValidate s
  | .accepted => .next (s.finish .ok)
  | .rejected => .next (s.finish .malformed)
  | .channelError => .next (s.finish .channelError)
  | .eHeaderLo => .next ((s.setMem (s.mem.write s.ptr (lo8 Config.header))).setFsm .eHeaderHi)
  | .eHeaderHi => .next ((s.setMem (s.mem.write (s.ptr + 1) (hi8 Config.header))).setFsm .eTrailerLo)
  | .eTrailerLo => rowTrailer lo8 30 .eTrailerHi s
  | .eTrailerHi => rowTrailer hi8 31 .eSend s
  | .eSend => rowSend s
  | .sScan => rowScan s

/-- `k` rows of the tables, one after the other. -/
def fsmRun (k : Nat) (s : State) : Result :=
  match k with
  | 0 => .next s
  | k + 1 => onNext (fsmStep s) (fsmRun k)

/-- A command that reset abandons after `k` rows: what those rows did stays done, nothing further happens, `finish`
is not performed, and the registers take their reset values (70_reset_and_hazards.md R263; log 10). -/
def abandonAfter (k : Nat) (i : Instr) (s : State) : Result :=
  onNext (onNext (fsmStart i s) (fsmRun k)) fun t => .next t.blockReset

end Sys2Proof.Machine
end

