-- ==== Sys2Proof/Machine/HostPort.lean ====
section
/-!
DEFINITION. What HOST and the platform do to the block: the register port (10_state.md R21, R27, R36), HOST's memory
accesses (30_encoding.md R98), and reset (70_reset_and_hazards.md R260 to R263).
-/

namespace Sys2Proof.Machine

/-- `trunc_N(v)` (00_scope.md R7). -/
def trunc (n v : Nat) : Nat := v % 2 ^ n

/-- `HostRead(n)`: the register's value zero-extended; CMD and the numbers above 6 read 0 (10_state.md R21, R36). -/
def hostRead (n : Nat) (s : State) : Nat :=
  match n with
  | 0 => 0
  | 1 => s.status.toNat
  | 2 => s.ptr
  | 3 => s.len
  | 4 => s.fill.toNat
  | 5 => s.limit
  | 6 => s.res
  | _ => 0

/-- A write of `v` to CMD: decode the opcode and run the command to its `finish`; a reserved opcode ends
ILLEGAL_COMMAND with no other effect (10_state.md R27; 30_encoding.md R93, R94; 60_exceptions.md R240). -/
def command (v : Nat) (s : State) : Result :=
  match decode (opcodeOf v) with
  | .ok i => exec i s
  | .error _ => .next (s.finish .illegalCommand)

/-- `HostWrite(n, v)`: truncated to the register's width; ignored for STATUS, RES and the numbers above 6
(10_state.md R21, R36). -/
def hostWrite (n v : Nat) (s : State) : Result :=
  match n with
  | 0 => command v s
  | 2 => .next { s with ptr := trunc s.cfg.addrW v }
  | 3 => .next { s with len := trunc s.cfg.addrW v }
  | 4 => .next { s with fill := BitVec.ofNat 8 v }
  | 5 => .next { s with limit := trunc s.cfg.cntW v }
  | _ => .next s

/-- Each of the `n` addresses from `a` upward holds memory. -/
def allMemory (p : Params) (a n : Nat) : Bool :=
  (List.range n).all fun j => isMemory p (a + j)

/-- `POKE`: HOST stores bytes at `a` upward (30_encoding.md R98). -/
def hostPoke (a : Nat) (bs : List Byte) (s : State) : Result :=
  if allMemory s.cfg a bs.length then .next { s with mem := s.mem.writeBytes a bs }
  else .refused .hostAddress

/-- `PEEK`: HOST reads `n` bytes at `a` upward (30_encoding.md R98; log 13). -/
def hostPeek (a n : Nat) (s : State) : Result :=
  if allMemory s.cfg a n then .next { s with seen := s.seen ++ [.bytes a (s.mem.readBytes a n)] }
  else .refused .hostAddress

/-- A write of `v` to CMD during which the platform asserts reset after `k` rows (70_reset_and_hazards.md R263). -/
def commandThenReset (v k : Nat) (s : State) : Result :=
  match decode (opcodeOf v) with
  | .ok i => abandonAfter k i s
  | .error _ => .next (s.finish .illegalCommand).blockReset

/-- One action of HOST or of the platform. -/
def act (a : Action) (s : State) : Result :=
  match a with
  | .write n v => hostWrite n v s
  | .read n => .next { s with seen := s.seen ++ [.reg n (hostRead n s)] }
  | .poke addr bs => hostPoke addr bs s
  | .peek addr n => hostPeek addr n s
  | .reset => .next s.blockReset
  | .cmdThenReset v k => commandThenReset v k s

/-- Take the next action from the script and perform it; with none left nothing happens (70_reset_and_hazards.md R261,
R276; log 15). -/
def nextAction (s : State) : Result :=
  match s.script with
  | [] => .next s
  | a :: rest => act a { s with script := rest }

/-- HOST's next action becomes the CMD write of the word `w` of `nbits` bits. -/
def placeCommand (nbits w : Nat) (s : State) : State :=
  { s with script := .write 0 (w % 2 ^ nbits) :: s.script }

end Sys2Proof.Machine
end

