-- ==== Sys2Proof/Machine/Step.lean ====
section
/-!
DEFINITION. One step: the next action of HOST or of the platform, a whole command among them (log 1).
-/

namespace Sys2Proof.Machine

/-- One step of the machine (10_state.md R33: the next instruction is the head of the host's script). -/
def step (s : State) : Host.Outcome State Fault Refusal := nextAction s

/-- `s` with the command word `w` as HOST's next action (log 2): the machine does not fetch, so the place its next
instruction comes from is the head of the script. -/
def State.withFetchWord (s : State) (nbits w : Nat) : State := placeCommand nbits w s

end Sys2Proof.Machine
end

