-- ==== Sys2Proof/Machine/Script.lean ====
section
/-!
DEFINITION. The host script syntax: the bus action each line encodes to, and what the pseudo-instructions expand to
(30_encoding.md R98, R99).
-/

namespace Sys2Proof.Machine

/-- The register numbers (10_state.md R21). -/
def regNumber (r : RegName) : Nat :=
  match r with
  | .cmd => 0
  | .status => 1
  | .ptr => 2
  | .len => 3
  | .fill => 4
  | .limit => 5
  | .res => 6

/-- The register a `SET` line names. -/
def setTarget (r : SetName) : RegName :=
  match r with
  | .ptr => .ptr
  | .len => .len
  | .fill => .fill
  | .limit => .limit

/-- The bus action of a script line (30_encoding.md R98). -/
def lineAction (l : ScriptLine) : Action :=
  match l with
  | .set r v => .write (regNumber (setTarget r)) v
  | .get r => .read (regNumber r)
  | .command i => .write 0 (encode i).toNat
  | .cmd v => .write 0 v
  | .poke addr bs => .poke addr bs
  | .peek addr n => .peek addr n

/-- The lines a pseudo-instruction expands to (30_encoding.md R99). -/
def expand (p : Pseudo) : List ScriptLine :=
  match p with
  | .write buf len => [.set .ptr buf, .set .len len, .command .write]
  | .wtr fill buf len => [.set .fill fill, .set .ptr buf, .set .len len, .command .wtr]
  | .encode frame => [.set .ptr frame, .command .encode]
  | .decode frame => [.set .ptr frame, .command .decode]
  | .resync win len => [.set .ptr win, .set .len len, .command .resync]
  | .outcome => [.get .status]

end Sys2Proof.Machine
end

