-- ==== Sys2Proof/Safety.lean ====
section
/-!
DEFINITION. The terms in which claims speak: the invariant of a run, when a command is given what it reads, and what a
trace says was put, received and polled.
-/

namespace Sys2Proof.Machine

/-- What holds between any two steps: the parameters meet 00_scope.md R5, MEM is in canonical form and lists only
addresses that hold memory (10_state.md R37), every register fits its width (R21 to R26), and the hidden state is idle
and cleared (R30 to R32; 70_reset_and_hazards.md R276). -/
structure Inv (s : State) : Prop where
  params : s.cfg.wellFormed = true
  memForm : s.mem.wf
  memPlace : ∀ c ∈ s.mem, isMemory s.cfg c.1 = true
  ptr : s.ptr < 2 ^ s.cfg.addrW
  len : s.len < 2 ^ s.cfg.addrW
  res : s.res < 2 ^ s.cfg.addrW
  limit : s.limit < 2 ^ s.cfg.cntW
  idle : s.fsm = .idle
  cnt : s.cnt = 0
  idx : s.idx = 0

/-- The `n` addresses from PTR upward do not pass the top of the address space and each is backed by buffer memory
(20_memory.md R64). -/
def Backed (s : State) (n : Nat) : Prop :=
  s.ptr + n ≤ 2 ^ s.cfg.addrW ∧
    ∀ j < n, ∃ r ∈ s.cfg.regions, r.base ≤ s.ptr + j ∧ s.ptr + j < r.base + r.size

/-- What WRITE, WTR and RESYNC ask of their operands: a buffer, a length, a legal extent (60_exceptions.md R234,
20_memory.md R64). -/
structure BufferAccepted (s : State) : Prop where
  ptr : s.ptr ≠ 0
  len : s.len ≠ 0
  backed : Backed s s.len

/-- What ENCODE and DECODE ask of their operand: a frame record, a legal extent (60_exceptions.md R234,
20_memory.md R64). -/
structure FrameAccepted (s : State) : Prop where
  ptr : s.ptr ≠ 0
  backed : Backed s 32

/-- The bytes `bs` stand in MEM from `a` upward. -/
def HoldsBytes (m : Mem) (a : Nat) (bs : List Byte) : Prop :=
  ∀ j (h : j < bs.length), m.read (a + j) = some bs[j]

/-- The 14 slots of the record at PTR hold the payload `P` (42_frame_codec.md R192: "a fully populated payload"). -/
def HoldsPayload (s : State) (P : Vector Half 14) : Prop :=
  ∀ n (h : n < 14), s.mem.read16 (s.ptr + 2 * (n + 1)) = some P[n]

/-- The frame a payload is encoded to: the constant header, the payload, the checksum of both (42_frame_codec.md R192;
the trailer is not read by `Checksum`, 41_checksum_validator.md R173). -/
def encodedFrame (P : Vector Half 14) : Frame :=
  marshal { hdr := 0x4020, slot := P, chk := checksum (marshal { hdr := 0x4020, slot := P, chk := 0 }) }

/-- The sum of all 16 fields, trailer included, as a number (41_checksum_validator.md R169). -/
def fieldSum (bs : Frame) : Nat := ((List.finRange 16).map fun k => (field bs k).toNat).sum

/-- The answers of successive waits, each ready after as many false polls as `ks` says (40_polling_fsm.md R121 law 3). -/
def readyAfter (ks : List Nat) : List Bool := ks.flatMap fun k => List.replicate k false ++ [true]

/-- The bytes put, in order. -/
def putBytes (es : List Event) : List Byte :=
  es.filterMap fun e => match e with
    | .put b => some b
    | _ => none

/-- The bytes received by `GetByte`, in order. -/
def gotBytes (es : List Event) : List Byte :=
  es.filterMap fun e => match e with
    | .get b => some b
    | _ => none

/-- The byte transfers of a trace, puts and gets, in order. -/
def transfers (es : List Event) : List Event :=
  es.filter fun e => match e with
    | .put _ => true
    | .get _ => true
    | _ => false

/-- An event of a poll. -/
def Event.isPoll (e : Event) : Bool :=
  match e with
  | .txrdy _ => true
  | .txc _ => true
  | .rxrdy _ => true
  | _ => false

/-- How many polls a trace holds. -/
def pollCount (es : List Event) : Nat := (es.filter Event.isPoll).length

end Sys2Proof.Machine
end

