-- ==== Sys2Proof/Certificates/Slice0/Obligations.lean ====
section
/-!
DEFINITION. The statements for the provers, from the numbered rules of spec/.
-/

open Sys2Proof Sys2Proof.Machine

/-! ## Encoding, decoding and the step -/

/-- 30_encoding.md R93, R90: words of the opcode map, read by the decoder as the opcode table numbers them. -/
def Obligations.OpcodeWordsDecode : Prop :=
  decode 0x01#8 = .ok .write ∧ decode 0x02#8 = .ok .wtr ∧ decode 0x03#8 = .ok .encode ∧
  decode 0x04#8 = .ok .decode ∧ decode 0x05#8 = .ok .resync ∧
  decode 0x00#8 = .error (.reservedOpcode 0x00) ∧ decode 0x06#8 = .error (.reservedOpcode 0x06) ∧
  decode 0xFF#8 = .error (.reservedOpcode 0xFF) ∧
  decodeTableWord 8 0x01 = some .write ∧ decodeTableWord 8 0x05 = some .resync ∧ decodeTableWord 8 0x00 = none

/-- 30_encoding.md R90, R93, R94: each command has one word, the decoder reads exactly that word as the command, and
refuses every other byte by name. -/
def Obligations.DecodeInvertsEncode : Prop :=
  (∀ i : Instr, i.wellFormed = true ∧ decode (encode i) = .ok i ∧ encodeBytes i = [encode i] ∧
    decodeTableWord 8 (encode i).toNat = some i) ∧
  (∀ (b : Byte) (i : Instr), decode b = .ok i → b = encode i) ∧
  (∀ b : Byte, (∀ i, b ≠ encode i) → decode b = .error (.reservedOpcode b))

/-- 30_encoding.md R93: what a write to CMD runs, for every value written. -/
def Obligations.CmdWriteRunsTheOpcodeMap : Prop :=
  ∀ (v : Nat) (s : State),
    (v % 256 = 1 → hostWrite 0 v s = exec .write s) ∧
    (v % 256 = 2 → hostWrite 0 v s = exec .wtr s) ∧
    (v % 256 = 3 → hostWrite 0 v s = exec .encode s) ∧
    (v % 256 = 4 → hostWrite 0 v s = exec .decode s) ∧
    (v % 256 = 5 → hostWrite 0 v s = exec .resync s) ∧
    (v % 256 = 0 ∨ 6 ≤ v % 256 → hostWrite 0 v s = .next (s.finish .illegalCommand))

/-- 30_encoding.md R94: a reserved opcode runs no operation and ends ILLEGAL_COMMAND. -/
def Obligations.ReservedOpcodeOnlyReportsIllegalCommand : Prop :=
  ∀ (s : State) (v : Nat) (rest : List Action),
    s.script = .write 0 v :: rest → (v % 256 = 0 ∨ 6 ≤ v % 256) →
    ∃ t, step s = .next t ∧ t.outcome = .illegalCommand ∧ t.status = 7 ∧
      t.mem = s.mem ∧ t.env = s.env ∧ t.trace = s.trace ∧ t.res = s.res ∧
      t.ptr = s.ptr ∧ t.len = s.len ∧ t.fill = s.fill ∧ t.limit = s.limit ∧ t.cfg = s.cfg ∧
      t.fsm = .idle ∧ t.cnt = 0 ∧ t.idx = 0 ∧ t.script = rest ∧ t.seen = s.seen

/-- 10_state.md R27, R33: when HOST's next action writes a command's opcode to CMD, the step is exec of that command
at the state whose script has moved past the action; and a command placed by `withFetchWord` is the one that runs. -/
def Obligations.StepRunsTheDecodedCommand : Prop :=
  (∀ (s : State) (v : Nat) (rest : List Action) (i : Instr),
    s.script = .write 0 v :: rest → decode (opcodeOf v) = .ok i → i.wellFormed = true →
    step s = exec i { s with script := rest }) ∧
  (∀ (s : State) (w : Nat) (i : Instr), decodeTableWord 8 w = some i → step (s.withFetchWord 8 w) = exec i s)

/-! ## The host port -/

/-- 10_state.md R21: a write to a read-write register stores the value truncated to the register's width, and
nothing else changes. -/
def Obligations.HostWriteStoresTheTruncatedValue : Prop :=
  ∀ (s : State) (v : Nat),
    hostWrite 2 v s = .next { s with ptr := v % 2 ^ s.cfg.addrW } ∧
    hostWrite 3 v s = .next { s with len := v % 2 ^ s.cfg.addrW } ∧
    (∃ t, hostWrite 4 v s = .next t ∧ t.fill.toNat = v % 256 ∧ t = { s with fill := t.fill }) ∧
    hostWrite 5 v s = .next { s with limit := v % 2 ^ s.cfg.cntW }

/-- 10_state.md R36: the remaining host port cases. -/
def Obligations.OddHostAccessesAreHarmless : Prop :=
  ∀ (s : State) (n v : Nat),
    hostWrite 1 v s = .next s ∧ hostWrite 6 v s = .next s ∧ hostRead 0 s = 0 ∧
    (6 < n → hostRead n s = 0 ∧ hostWrite n v s = .next s) ∧
    (n = 2 ∨ n = 3 ∨ n = 4 ∨ n = 5 → ∃ t, hostWrite n v s = .next t ∧ t.outcome = s.outcome ∧
      hostRead n t = v % 2 ^ (if n = 4 then 8 else if n = 5 then s.cfg.cntW else s.cfg.addrW)) ∧
    (∃ t, act (.read n) s = .next t ∧ t.outcome = s.outcome)

/-- 10_state.md R21, R28, R29: a step that reads a register hands HOST its value and changes nothing else. The record of
what HOST has read is the model's own (log 13). -/
def Obligations.HostReadReturnsTheRegister : Prop :=
  ∀ (s : State) (n : Nat) (rest : List Action), s.script = .read n :: rest →
    step s = .next { s with script := rest, seen := s.seen ++ [.reg n
      (if n = 1 then s.outcome.code.toNat
       else if n = 2 then s.ptr
       else if n = 3 then s.len
       else if n = 4 then s.fill.toNat
       else if n = 5 then s.limit
       else if n = 6 then s.res
       else 0)] }

/-- 10_state.md R28, R29, 60_exceptions.md R247: STATUS reads the outcome's code, below 8, and the eight codes are
pairwise distinct. -/
def Obligations.StatusReadsDistinctOutcomeCodes : Prop :=
  (∀ s : State, s.status.toNat = s.outcome.code.toNat ∧ s.status.toNat < 8) ∧
  (∀ o o' : OutcomeCode, o.code = o'.code → o = o') ∧
  (OutcomeCode.none.code = 0 ∧ OutcomeCode.ok.code = 1 ∧ OutcomeCode.timeout.code = 2 ∧
    OutcomeCode.channelError.code = 3 ∧ OutcomeCode.malformed.code = 4 ∧ OutcomeCode.invalidArgument.code = 5 ∧
    OutcomeCode.notFound.code = 6 ∧ OutcomeCode.illegalCommand.code = 7)

/-- 30_encoding.md R98, 20_memory.md R61: HOST's POKE stores its bytes and leaves every other byte and everything else
alone; a PEEK of the same place then answers them. The record of what HOST has read is the model's own (log 13). -/
def Obligations.PokeThenPeekReturnsTheBytes : Prop :=
  ∀ (s : State) (a : Nat) (bs : List Byte), allMemory s.cfg a bs.length = true →
    ∃ t u, act (.poke a bs) s = .next t ∧ t = { s with mem := t.mem } ∧ HoldsBytes t.mem a bs ∧
      (∀ x, x < a ∨ a + bs.length ≤ x → t.mem.read x = s.mem.read x) ∧
      act (.peek a bs.length) t = .next u ∧ u = { t with seen := t.seen ++ [.bytes a (bs.map some)] }

/-- 30_encoding.md R98, R99: the script of a pseudo-instruction writes its operands and then the command's opcode. -/
def Obligations.PseudoInstructionsExpandToBusActions : Prop :=
  ∀ fill buf len : Nat,
    (expand (.write buf len)).map lineAction = [.write 2 buf, .write 3 len, .write 0 0x01] ∧
    (expand (.wtr fill buf len)).map lineAction = [.write 4 fill, .write 2 buf, .write 3 len, .write 0 0x02] ∧
    (expand (.encode buf)).map lineAction = [.write 2 buf, .write 0 0x03] ∧
    (expand (.decode buf)).map lineAction = [.write 2 buf, .write 0 0x04] ∧
    (expand (.resync buf len)).map lineAction = [.write 2 buf, .write 3 len, .write 0 0x05] ∧
    (expand .outcome).map lineAction = [.read 1]

/-! ## The end of a command, and reset -/

/-- 60_exceptions.md R236: `finish` writes OUTCOME, idles and clears the hidden state, and touches nothing else. -/
def Obligations.FinishReportsAndIdles : Prop :=
  ∀ (s : State) (o : OutcomeCode),
    s.finish o = { s with outcome := o, fsm := .idle, cnt := 0, idx := 0 }

/-- 70_reset_and_hazards.md R261: reset sets every piece of the block's own state; the block then waits, and a command
issued before any `SET` ends INVALID_ARGUMENT, a reserved opcode ILLEGAL_COMMAND, having touched nothing. -/
def Obligations.ResetSetsEveryRegister : Prop :=
  ∀ (s : State) (rest : List Action), s.script = .reset :: rest →
    ∃ t, step s = .next t ∧
      t.outcome = .none ∧ t.ptr = 0 ∧ t.len = 0 ∧ t.fill = 0 ∧ t.limit = s.cfg.limitReset ∧ t.res = 0 ∧
      t.fsm = .idle ∧ t.cnt = 0 ∧ t.idx = 0 ∧ t.mem = s.mem ∧ t.trace = s.trace ∧ t.env = s.env ∧
      t.cfg = s.cfg ∧ t.script = rest ∧ t.seen = s.seen ∧
      fsmStep t = .next t ∧
      (∀ i, exec i t = .next { t with outcome := .invalidArgument }) ∧
      (∀ v, v % 256 = 0 ∨ 6 ≤ v % 256 → hostWrite 0 v t = .next { t with outcome := .illegalCommand })

/-- 10_state.md R41, 70_reset_and_hazards.md R262: the state after power-on, for every choice of the parameters. That a
byte nothing has written is `none` is the model's form of "holding no value" (log 5). -/
def Obligations.PowerOnStateHasTheResetValues : Prop :=
  ∀ p : Params, ∃ s, s = State.resetWith p ∧ s.cfg = p ∧
    s.outcome = .none ∧ s.status = 0 ∧ hostRead 0 s = 0 ∧ s.ptr = 0 ∧ s.len = 0 ∧ s.fill = 0 ∧
    s.limit = p.limitReset ∧ s.res = 0 ∧ s.fsm = .idle ∧ s.cnt = 0 ∧ s.idx = 0 ∧
    (∀ a, s.mem.read a = none) ∧ s.trace = []

/-- 70_reset_and_hazards.md R263: a reset after `k` rows of a command's state table keeps what those rows did to MEM,
the trace and the environment, and leaves the reset values, not an outcome of the command. That a reset lands between
two rows is the model's choice (log 10). -/
def Obligations.ResetAbandonsARunningCommand : Prop :=
  ∀ (s u : State) (v k : Nat) (i : Instr) (rest : List Action),
    s.script = .cmdThenReset v k :: rest → decode (opcodeOf v) = .ok i →
    onNext (fsmStart i { s with script := rest }) (fsmRun k) = .next u →
    ∃ t, step s = .next t ∧ t.mem = u.mem ∧ t.trace = u.trace ∧ t.env = u.env ∧ t.script = rest ∧
      t.outcome = .none ∧ t.ptr = 0 ∧ t.len = 0 ∧ t.fill = 0 ∧ t.limit = s.cfg.limitReset ∧ t.res = 0 ∧
      t.fsm = .idle ∧ t.cnt = 0 ∧ t.idx = 0

/-! ## The bounded poll -/

/-- 40_polling_fsm.md R120: the loop of `Poll`, test by test. -/
def Obligations.PollFollowsItsLoop : Prop :=
  ∀ (p : Pred) (s : State),
    poll p s = pollLoop p (s.limit - 0) (s.setCnt 0) ∧
    (s.cnt = s.limit → pollLoop p (s.limit - s.cnt) s = (.timeout, s)) ∧
    (∀ t, s.cnt < s.limit → ask p s = (true, t) → pollLoop p (s.limit - s.cnt) s = (.ready, t)) ∧
    (∀ t, s.cnt < s.limit → ask p s = (false, t) →
      pollLoop p (s.limit - s.cnt) s = pollLoop p (t.limit - (t.cnt + 1)) (t.setCnt (t.cnt + 1)))

/-- 40_polling_fsm.md R121 laws 3 and 4, R123: the first true answer, numbered `k + 1 <= LIMIT`, makes the wait ready
after exactly `k + 1` polls; later answers are not asked for. -/
def Obligations.PollIsReadyAtTheFirstTrueAnswer : Prop :=
  ∀ (p : Pred) (s : State) (k : Nat) (later : List Bool),
    k < s.limit → s.env.answers p = List.replicate k false ++ true :: later →
    ∃ t, poll p s = (.ready, t) ∧ t.cnt = k ∧ t.env = s.env.withAnswers p later ∧
      t.trace = s.trace ++ (List.replicate k false ++ [true]).map p.event ∧
      t = { s with cnt := t.cnt, env := t.env, trace := t.trace }

/-- 40_polling_fsm.md R121 law 2: a predicate that answers false LIMIT times is polled exactly LIMIT times and the wait
times out. -/
def Obligations.PollTimesOutAfterExactlyLimitPolls : Prop :=
  ∀ (p : Pred) (s : State) (later : List Bool),
    s.env.answers p = List.replicate s.limit false ++ later →
    ∃ t, poll p s = (.timeout, t) ∧ t.cnt = s.limit ∧ t.env = s.env.withAnswers p later ∧
      t.trace = s.trace ++ List.replicate s.limit (p.event false) ∧
      t = { s with cnt := t.cnt, env := t.env, trace := t.trace }

/-- 40_polling_fsm.md R122: with `LIMIT == 0` a wait makes no poll, a WRITE puts no byte, a WTR puts exactly one fill
byte and receives none. -/
def Obligations.ZeroCeilingTimesOutAtOnce : Prop :=
  ∀ s : State, s.limit = 0 →
    (∀ p, poll p s = (.timeout, s.setCnt 0)) ∧
    (BufferAccepted s →
      exec .write s = .next (s.finish .timeout) ∧
      ∃ t, exec .wtr s = .next t ∧ t.outcome = .timeout ∧ t.trace = s.trace ++ [.put s.fill] ∧
        t.mem = s.mem ∧ t.env = s.env)

/-! ## Arguments and extents -/

/-- 60_exceptions.md R234: a command ends INVALID_ARGUMENT exactly on a null buffer or, where a length is needed, a
zero length, and then has touched nothing but OUTCOME and, for RESYNC, RES. -/
def Obligations.InvalidArgumentExactlyOnNullOrZeroLength : Prop :=
  ∀ (i : Instr) (s : State),
    ((s.ptr = 0 ∨ (i ≠ .encode ∧ i ≠ .decode ∧ s.len = 0)) →
      exec i s = .next { s with outcome := .invalidArgument, fsm := .idle, cnt := 0, idx := 0,
                                res := if i = .resync then 0 else s.res }) ∧
    (∀ t, exec i s = .next t → t.outcome = .invalidArgument →
      s.ptr = 0 ∨ (i ≠ .encode ∧ i ≠ .decode ∧ s.len = 0))

/-- 20_memory.md R64: with valid arguments, an extent that passes the top of the address space or holds an address
without memory is refused, and no other command is refused for its extent. -/
def Obligations.IllegalExtentIsRefused : Prop :=
  (∀ (i : Instr) (s : State), (i = .write ∨ i = .wtr ∨ i = .resync) → s.ptr ≠ 0 → s.len ≠ 0 →
    (¬ Backed s s.len ↔ exec i s = .refused .illegalExtent)) ∧
  (∀ (i : Instr) (s : State), (i = .encode ∨ i = .decode) → s.ptr ≠ 0 →
    (¬ Backed s 32 ↔ exec i s = .refused .illegalExtent))

/-- 70_reset_and_hazards.md R262, 93_implementation_defined.md U8: a command that comes to read a byte nothing has
written has no defined result. Of the two treatments U8 allows the model takes refusal (log 5). An ENCODE is refused
exactly when its payload is not filled (header and trailer bytes are exempt); a WRITE when, after `n` bytes written and
sent, each wait ready on some poll up to LIMIT, it comes to an unwritten byte; a RESYNC when, with no pair before, it
comes to an unwritten byte at offset `k`, or at `k + 1` after a `0x20`. WTR and DECODE read no byte they have not stored
and are never refused so. -/
def Obligations.ReadingAnUnwrittenByteIsRefused : Prop :=
  (∀ s : State, FrameAccepted s →
    ((∃ j, 2 ≤ j ∧ j < 30 ∧ s.mem.read (s.ptr + j) = none) ↔ exec .encode s = .refused .unwrittenByte)) ∧
  (∀ (s : State) (n : Nat) (rs cs : List Nat) (rdy done : List Bool), BufferAccepted s → n < s.len →
    rs.length = n + 1 → cs.length = n → (∀ k ∈ rs, k < s.limit) → (∀ k ∈ cs, k < s.limit) →
    s.env.txReady = readyAfter rs ++ rdy → s.env.txComplete = readyAfter cs ++ done →
    (∀ j < n, s.mem.read (s.ptr + j) ≠ none) → s.mem.read (s.ptr + n) = none →
    exec .write s = .refused .unwrittenByte) ∧
  (∀ (s : State) (k : Nat), BufferAccepted s → k + 1 < s.len → (∀ j < k, s.mem.read (s.ptr + j) ≠ none) →
    (∀ j < k, ¬ (s.mem.read (s.ptr + j) = some 0x20 ∧ s.mem.read (s.ptr + j + 1) = some 0x40)) →
    (s.mem.read (s.ptr + k) = none ∨
      s.mem.read (s.ptr + k) = some 0x20 ∧ s.mem.read (s.ptr + k + 1) = none) →
    exec .resync s = .refused .unwrittenByte) ∧
  ∀ (i : Instr) (s : State), i = .wtr ∨ i = .decode → exec i s ≠ .refused .unwrittenByte

/-! ## WRITE -/

/-- 40_polling_fsm.md R125 law 1: with valid arguments, a ceiling of at least one poll and a transport that is always
ready, WRITE sends the whole buffer and ends OK. -/
def Obligations.WriteSendsTheWholeBuffer : Prop :=
  ∀ (s : State) (bs : List Byte) (rdy done : List Bool),
    BufferAccepted s → 0 < s.limit → bs.length = s.len → HoldsBytes s.mem s.ptr bs →
    s.env.txReady = List.replicate s.len true ++ rdy → s.env.txComplete = List.replicate s.len true ++ done →
    exec .write s = .next { s with
      outcome := .ok, fsm := .idle, cnt := 0, idx := 0,
      env := { s.env with txReady := rdy, txComplete := done },
      trace := s.trace ++ bs.flatMap fun b => [.txrdy true, .put b, .txc true] }

/-- 40_polling_fsm.md R125 law 2: with valid arguments and a transport that is never ready, WRITE polls exactly LIMIT
times, puts nothing and ends TIMEOUT. -/
def Obligations.WriteTimesOutWhenNeverReady : Prop :=
  ∀ (s : State) (later : List Bool),
    BufferAccepted s → s.env.txReady = List.replicate s.limit false ++ later →
    exec .write s = .next { s with
      outcome := .timeout, fsm := .idle, cnt := 0, idx := 0,
      env := { s.env with txReady := later },
      trace := s.trace ++ List.replicate s.limit (.txrdy false) }

/-- 40_polling_fsm.md R124, R125 laws 3 to 5: whatever the transport answers, a WRITE of a written buffer ends, OK or
TIMEOUT, changes nothing but OUTCOME, the hidden state, the trace and the environment, has put an initial part of the
buffer, the whole of it if OK, and has made at most `2 * LEN * LIMIT` polls. -/
def Obligations.WriteEndsHavingPutAnInitialPart : Prop :=
  ∀ (s : State) (bs : List Byte),
    BufferAccepted s → bs.length = s.len → HoldsBytes s.mem s.ptr bs →
    ∃ o e es, exec .write s = .next { s with
        outcome := o, fsm := .idle, cnt := 0, idx := 0, env := e, trace := s.trace ++ es } ∧
      (o = .ok ∨ o = .timeout) ∧ putBytes es <+: bs ∧ (o = .ok → putBytes es = bs) ∧
      gotBytes es = [] ∧ pollCount es ≤ 2 * s.len * s.limit

/-- 20_memory.md R66, 40_polling_fsm.md R124: a WRITE reads the bytes it puts and no other. Beside a run over a memory `m`
that fills gaps of the buffer: if every byte that run puts is written in MEM, the WRITE ends as that run does; if one of
them is not, it is refused (log 5). -/
def Obligations.WriteReadsOnlyTheBytesItPuts : Prop :=
  ∀ (s t : State) (m : Mem) (es : List Event),
    (∀ j < s.len, ∀ b, s.mem.read (s.ptr + j) = some b → m.read (s.ptr + j) = some b) →
    exec .write { s with mem := m } = .next t → t.trace = s.trace ++ es →
    ((∀ j < (putBytes es).length, s.mem.read (s.ptr + j) ≠ none) → exec .write s = .next { t with mem := s.mem }) ∧
    ((∃ j < (putBytes es).length, s.mem.read (s.ptr + j) = none) → exec .write s = .refused .unwrittenByte)

/-! ## WTR -/

/-- 40_polling_fsm.md R127 law 1: with valid arguments, a ceiling of at least one poll and a receiver that is always
ready, WTR stores the bytes received at PTR upward and ends OK. -/
def Obligations.WtrReceivesTheWholeBuffer : Prop :=
  ∀ (s : State) (bs : List Byte) (rdy : List Bool) (more : List Byte),
    BufferAccepted s → 0 < s.limit → bs.length = s.len →
    s.env.rxReady = List.replicate s.len true ++ rdy → s.env.getByte = bs ++ more →
    ∃ m, exec .wtr s = .next { s with
        outcome := .ok, fsm := .idle, cnt := 0, idx := 0, mem := m,
        env := { s.env with rxReady := rdy, getByte := more },
        trace := s.trace ++ bs.flatMap fun b => [.put s.fill, .rxrdy true, .get b] } ∧
      HoldsBytes m s.ptr bs ∧ ∀ x, x < s.ptr ∨ s.ptr + s.len ≤ x → m.read x = s.mem.read x

/-- 40_polling_fsm.md R127 law 2: with valid arguments and a receiver that is never ready, WTR puts one fill byte,
polls exactly LIMIT times, stores nothing and ends TIMEOUT. -/
def Obligations.WtrTimesOutWhenNeverReady : Prop :=
  ∀ (s : State) (later : List Bool),
    BufferAccepted s → s.env.rxReady = List.replicate s.limit false ++ later →
    exec .wtr s = .next { s with
      outcome := .timeout, fsm := .idle, cnt := 0, idx := 0,
      env := { s.env with rxReady := later },
      trace := s.trace ++ .put s.fill :: List.replicate s.limit (.rxrdy false) }

/-- 40_polling_fsm.md R126, R127 laws 3 to 5: whatever the environment answers, a WTR ends, OK or TIMEOUT; exactly the
bytes received are stored, at PTR upward, all LEN of them exactly if OK; each put carried FILL, one more than the gets
on TIMEOUT; at most `LEN * LIMIT` polls were made. -/
def Obligations.WtrEndsHavingStoredWhatItReceived : Prop :=
  ∀ s : State, BufferAccepted s →
    ∃ o e es m, exec .wtr s = .next { s with
        outcome := o, fsm := .idle, cnt := 0, idx := 0, env := e, trace := s.trace ++ es, mem := m } ∧
      (o = .ok ∨ o = .timeout) ∧
      (gotBytes es).length ≤ s.len ∧ (o = .ok ↔ (gotBytes es).length = s.len) ∧
      HoldsBytes m s.ptr (gotBytes es) ∧
      (∀ x, x < s.ptr ∨ s.ptr + (gotBytes es).length ≤ x → m.read x = s.mem.read x) ∧
      putBytes es = List.replicate ((gotBytes es).length + if o = .ok then 0 else 1) s.fill ∧
      pollCount es ≤ s.len * s.limit

/-- 20_memory.md R71: bytes are transferred strictly in order. The puts of a WRITE carry the buffer's bytes in
ascending position; in a WTR the put of a position precedes its get, which precedes the next put, and the byte of get
number `i` is stored at PTR + i. -/
def Obligations.BytesAreTransferredInOrder : Prop :=
  (∀ (s t : State) (es : List Event), exec .write s = .next t → t.trace = s.trace ++ es →
    ∃ n ≤ s.len, ∃ bs : List Byte, bs.length = n ∧ HoldsBytes s.mem s.ptr bs ∧ transfers es = bs.map .put) ∧
  (∀ (s t : State) (es : List Event), exec .wtr s = .next t → t.trace = s.trace ++ es →
    ∃ (bs : List Byte) (last : List Event), transfers es = bs.flatMap (fun b => [.put s.fill, .get b]) ++ last ∧
      (last = [] ∨ last = [.put s.fill]) ∧ bs.length ≤ s.len ∧ HoldsBytes t.mem s.ptr bs)

/-! ## ENCODE -/

/-- 42_frame_codec.md R192: an ENCODE of a filled record writes header and trailer, hands exactly those 32 bytes to
the channel once, and ends with the channel's answer; no other byte changes. -/
def Obligations.EncodeWritesTheFrameAndSendsIt : Prop :=
  ∀ (s : State) (P : Vector Half 14) (o : ChOutcome) (e : Env),
    FrameAccepted s → HoldsPayload s P → s.env.nextSend = (o, e) →
    ∃ m, exec .encode s = .next { s with
        outcome := if o = .ok then .ok else .channelError, fsm := .idle, cnt := 0, idx := 0, env := e, mem := m,
        trace := s.trace ++ [.send (encodedFrame P) o] } ∧
      m.readFrame s.ptr = some (encodedFrame P) ∧
      (∀ x, x ≠ s.ptr → x ≠ s.ptr + 1 → x ≠ s.ptr + 30 → x ≠ s.ptr + 31 → m.read x = s.mem.read x)

/-- 42_frame_codec.md R193: the laws of ENCODE, whatever the outcome. -/
def Obligations.EncodedRecordIsValidWhateverTheOutcome : Prop :=
  ∀ s t : State, s.ptr ≠ 0 → exec .encode s = .next t →
    ∃ bs o, t.mem.readFrame s.ptr = some bs ∧ t.trace = s.trace ++ [.send bs o] ∧
      t.mem.read16 s.ptr = some 0x4020 ∧ frameValid bs = true ∧ fieldSum bs % 65536 = 0xFFFF ∧
      (∀ j, 2 ≤ j → j < 30 → t.mem.read (s.ptr + j) = s.mem.read (s.ptr + j)) ∧
      ∃ u, exec .encode t = .next u ∧ ∀ x, u.mem.read x = t.mem.read x

/-! ## DECODE -/

/-- 42_frame_codec.md R194, R195: one receive; on ok the 32 bytes are stored at PTR and validated, on channel-error
nothing is stored; nothing else changes. -/
def Obligations.DecodeStoresAndValidatesTheFrame : Prop :=
  ∀ (s : State) (e : Env), FrameAccepted s →
    (∀ bs, s.env.nextRecv = (.ok bs, e) →
      ∃ m, exec .decode s = .next { s with
          outcome := if checksum bs = field bs 15 then .ok else .malformed, fsm := .idle, cnt := 0, idx := 0,
          env := e, mem := m, trace := s.trace ++ [.recv (.ok bs)] } ∧
        m.readFrame s.ptr = some bs ∧ ∀ x, x < s.ptr ∨ s.ptr + 32 ≤ x → m.read x = s.mem.read x) ∧
    (s.env.nextRecv = (.channelError, e) →
      exec .decode s = .next { s with
        outcome := .channelError, fsm := .idle, cnt := 0, idx := 0, env := e,
        trace := s.trace ++ [.recv .channelError] })

/-- 42_frame_codec.md R197: over a loopback channel an ENCODE of a payload at one record and a DECODE into another both
end OK and reproduce the payload. -/
def Obligations.LoopbackReproducesThePayload : Prop :=
  ∀ (s t v : State) (P : Vector Half 14) (later : List ChOutcome) (more : List RecvAnswer) (bs : Frame),
    FrameAccepted s → HoldsPayload s P → s.env.send = .ok :: later →
    exec .encode s = .next t → t.trace = s.trace ++ [.send bs .ok] →
    v = { t with ptr := v.ptr, env := { t.env with recv := .ok bs :: more } } → FrameAccepted v →
    t.outcome = .ok ∧
    ∃ u, exec .decode v = .next u ∧ u.outcome = .ok ∧
      u.mem.readFrame v.ptr = t.mem.readFrame s.ptr ∧
      (v.ptr + 32 ≤ s.ptr ∨ s.ptr + 32 ≤ v.ptr → u.mem.readFrame v.ptr = u.mem.readFrame s.ptr) ∧
      ∀ n (h : n < 14), u.mem.read16 (v.ptr + 2 * (n + 1)) = some P[n]

/-! ## RESYNC -/

/-- 42_frame_codec.md R191: the boundary detector finds the least offset of the header pair. -/
def Obligations.FindHeaderIsTheLeastPair : Prop :=
  ∀ w : List Byte,
    (∀ i : Nat, findHeader w = some i ↔
      w[i]? = some 0x20 ∧ w[i + 1]? = some 0x40 ∧ ∀ j < i, ¬ (w[j]? = some 0x20 ∧ w[j + 1]? = some 0x40)) ∧
    (findHeader w = none ↔ ∀ j : Nat, ¬ (w[j]? = some 0x20 ∧ w[j + 1]? = some 0x40)) ∧
    (w.length = 1 → findHeader w = none)

/-- 42_frame_codec.md R200: a RESYNC of a written window puts the address of the earliest header pair in RES and ends
OK, or puts 0 there and ends NOT_FOUND; nothing else changes. -/
def Obligations.ResyncFindsTheEarliestHeader : Prop :=
  ∀ (s : State) (w : List Byte),
    BufferAccepted s → w.length = s.len → HoldsBytes s.mem s.ptr w →
    (∀ i, findHeader w = some i →
      exec .resync s = .next { s with
        outcome := .ok, fsm := .idle, cnt := 0, idx := 0, res := s.ptr + i }) ∧
    (findHeader w = none →
      exec .resync s = .next { s with outcome := .notFound, fsm := .idle, cnt := 0, idx := 0, res := 0 })

/-- 42_frame_codec.md R198: the laws of RESYNC. -/
def Obligations.ResyncLaws : Prop :=
  ∀ s t : State, exec .resync s = .next t →
    (∀ k, s.ptr ≠ 0 → k + 1 < s.len →
      s.mem.read (s.ptr + k) = some 0x20 → s.mem.read (s.ptr + k + 1) = some 0x40 →
      (∀ j < k, ¬ (s.mem.read (s.ptr + j) = some 0x20 ∧ s.mem.read (s.ptr + j + 1) = some 0x40)) →
      t.outcome = .ok ∧ t.res = s.ptr + k) ∧
    (s.ptr ≠ 0 → s.len ≠ 0 →
      (∀ j, j + 1 < s.len → ¬ (s.mem.read (s.ptr + j) = some 0x20 ∧ s.mem.read (s.ptr + j + 1) = some 0x40)) →
      t.outcome = .notFound) ∧
    (t.outcome = .ok →
      t.mem.read t.res = some 0x20 ∧ t.mem.read (t.res + 1) = some 0x40 ∧
      s.ptr ≤ t.res ∧ t.res + 2 ≤ s.ptr + s.len ∧
      ∀ j < t.res - s.ptr, ¬ (s.mem.read (s.ptr + j) = some 0x20 ∧ s.mem.read (s.ptr + j + 1) = some 0x40)) ∧
    (t.outcome = .notFound ∨ t.outcome = .invalidArgument → t.res = 0) ∧
    (t.env = s.env ∧ t.trace = s.trace ∧ t.mem = s.mem) ∧
    (∀ (m : Mem) (e : Env), (∀ x, s.ptr ≤ x → x < s.ptr + s.len → m.read x = s.mem.read x) →
      exec .resync { s with mem := m, env := e } = .next { t with mem := m, env := e })

/-! ## What every command leaves alone, and what it depends on -/

/-- 10_state.md R34: no command, a reserved opcode among them, writes PTR, LEN, FILL or LIMIT. -/
def Obligations.CommandsPreserveTheirOperands : Prop :=
  ∀ (v : Nat) (s t : State), hostWrite 0 v s = .next t →
    t.ptr = s.ptr ∧ t.len = s.len ∧ t.fill = s.fill ∧ t.limit = s.limit ∧
    t.cfg = s.cfg ∧ t.script = s.script ∧ t.seen = s.seen

/-- 10_state.md R26, R30, R31, R32, 60_exceptions.md R236: only RESYNC writes RES; after every command the hidden state
is idle and cleared. -/
def Obligations.OnlyResyncWritesResAndAllEndIdle : Prop :=
  ∀ (v : Nat) (s t : State), hostWrite 0 v s = .next t →
    (v % 256 ≠ 5 → t.res = s.res) ∧ t.fsm = .idle ∧ t.cnt = 0 ∧ t.idx = 0

/-- 20_memory.md R63, R66, R75: the bytes a command may write; every other byte, address 0 among them, reads as
before. -/
def Obligations.CommandsWriteOnlyTheirBytes : Prop :=
  (∀ (i : Instr) (s t : State), exec i s = .next t → t.mem.read 0 = s.mem.read 0) ∧
  (∀ (s t : State) (x : Nat), exec .write s = .next t ∨ exec .resync s = .next t →
    t.mem.read x = s.mem.read x) ∧
  (∀ (s t : State) (x : Nat), exec .wtr s = .next t → (x < s.ptr ∨ s.ptr + s.len ≤ x) →
    t.mem.read x = s.mem.read x) ∧
  (∀ (s t : State) (x : Nat), exec .encode s = .next t →
    x ≠ s.ptr → x ≠ s.ptr + 1 → x ≠ s.ptr + 30 → x ≠ s.ptr + 31 → t.mem.read x = s.mem.read x) ∧
  (∀ (s t : State) (x : Nat), exec .decode s = .next t →
    (x < s.ptr ∨ s.ptr + 32 ≤ x ∨ t.outcome = .channelError ∨ t.outcome = .invalidArgument) →
    t.mem.read x = s.mem.read x)

/-- 20_memory.md R66, R67: a command reads no byte outside its extent. Two runs from states that differ only in
bytes outside the extent end alike. -/
def Obligations.CommandsReadOnlyTheirExtent : Prop :=
  ∀ (i : Instr) (s : State) (m : Mem),
    (∀ x, s.ptr ≤ x → x < s.ptr + extentLen i s → m.read x = s.mem.read x) →
    (∀ t, exec i s = .next t → ∃ u, exec i { s with mem := m } = .next u ∧ u = { t with mem := u.mem } ∧
      ∀ x, s.ptr ≤ x → x < s.ptr + extentLen i s → u.mem.read x = t.mem.read x) ∧
    (∀ r, exec i s = .refused r → exec i { s with mem := m } = .refused r)

/-- 10_state.md R35: the effect of a command is a function of its operands, MEM and the environment's answers; STATUS,
RES, the hidden state and all that went before do not matter. -/
def Obligations.CommandsAreStateless : Prop :=
  ∀ (i : Instr) (s r : State),
    r.cfg = s.cfg → r.ptr = s.ptr → r.len = s.len → r.fill = s.fill → r.limit = s.limit →
    r.mem = s.mem → r.env = s.env →
    (∀ t, exec i s = .next t → ∃ u es, exec i r = .next u ∧
      u.outcome = t.outcome ∧ u.mem = t.mem ∧ u.env = t.env ∧
      t.trace = s.trace ++ es ∧ u.trace = r.trace ++ es ∧
      (if i = .resync then u.res = t.res else t.res = s.res ∧ u.res = r.res)) ∧
    (∀ q, exec i s = .refused q → exec i r = .refused q)

/-- 60_exceptions.md R241: which outcome a command can end with, and that each of the possible ones does occur. -/
def Obligations.OutcomeMatrix : Prop :=
  (∀ s t, exec .write s = .next t → t.outcome ∈ [.ok, .timeout, .invalidArgument]) ∧
  (∀ s t, exec .wtr s = .next t → t.outcome ∈ [.ok, .timeout, .invalidArgument]) ∧
  (∀ s t, exec .encode s = .next t → t.outcome ∈ [.ok, .channelError, .invalidArgument]) ∧
  (∀ s t, exec .decode s = .next t → t.outcome ∈ [.ok, .channelError, .malformed, .invalidArgument]) ∧
  (∀ s t, exec .resync s = .next t → t.outcome ∈ [.ok, .invalidArgument, .notFound]) ∧
  (∀ v s t, v % 256 = 0 ∨ 6 ≤ v % 256 → hostWrite 0 v s = .next t → t.outcome = .illegalCommand) ∧
  (∀ o ∈ [OutcomeCode.ok, .timeout, .invalidArgument], ∃ s t, exec .write s = .next t ∧ t.outcome = o) ∧
  (∀ o ∈ [OutcomeCode.ok, .timeout, .invalidArgument], ∃ s t, exec .wtr s = .next t ∧ t.outcome = o) ∧
  (∀ o ∈ [OutcomeCode.ok, .channelError, .invalidArgument], ∃ s t, exec .encode s = .next t ∧ t.outcome = o) ∧
  (∀ o ∈ [OutcomeCode.ok, .channelError, .malformed, .invalidArgument],
    ∃ s t, exec .decode s = .next t ∧ t.outcome = o) ∧
  (∀ o ∈ [OutcomeCode.ok, .invalidArgument, .notFound], ∃ s t, exec .resync s = .next t ∧ t.outcome = o) ∧
  (∃ v s t, hostWrite 0 v s = .next t ∧ t.outcome = .illegalCommand)

/-- 40_polling_fsm.md R124, R126, 42_frame_codec.md R192, R194, R198, R200, 60_exceptions.md R234: each command makes only
the calls of its own pseudocode, and the trace only grows (00_scope.md R10): WRITE and WTR use the transport, ENCODE
sends once, DECODE receives once, RESYNC and a command with invalid arguments ask nothing. -/
def Obligations.EachCommandUsesOnlyItsPort : Prop :=
  (∀ s t, exec .write s = .next t → ∃ es, t.trace = s.trace ++ es ∧
    ∀ e ∈ es, (∃ b, e = .txrdy b) ∨ (∃ b, e = .put b) ∨ ∃ b, e = .txc b) ∧
  (∀ s t, exec .wtr s = .next t → ∃ es, t.trace = s.trace ++ es ∧
    ∀ e ∈ es, e = .put s.fill ∨ (∃ b, e = .rxrdy b) ∨ ∃ b, e = .get b) ∧
  (∀ s t, exec .encode s = .next t → t.outcome ≠ .invalidArgument → ∃ bs o, t.trace = s.trace ++ [.send bs o]) ∧
  (∀ s t, exec .decode s = .next t → t.outcome ≠ .invalidArgument → ∃ a, t.trace = s.trace ++ [.recv a]) ∧
  (∀ s t, exec .resync s = .next t → t.trace = s.trace ∧ t.env = s.env) ∧
  (∀ i s t, exec i s = .next t → t.outcome = .invalidArgument → t.trace = s.trace ∧ t.env = s.env)

/-! ## The checksum validator and the field unmarshaller -/

/-- 41_checksum_validator.md R165: a field is little-endian, and the field of a record is the 16-bit value at its
place in MEM. -/
def Obligations.FieldsAreLittleEndian : Prop :=
  (∀ (bs : Frame) (k : Nat) (h : k < 16),
    (field bs ⟨k, h⟩).toNat = bs[2 * k].toNat + 256 * bs[2 * k + 1].toNat) ∧
  (∀ (m : Mem) (a : Nat) (bs : Frame) (k : Nat) (h : k < 16), m.readFrame a = some bs →
    m.read16 (a + 2 * k) = some (field bs ⟨k, h⟩))

/-- 41_checksum_validator.md R166, R167: `Marshal` places every byte of every field, and `Unmarshal` and `Marshal` are
inverse to each other. -/
def Obligations.UnmarshalAndMarshalAreInverse : Prop :=
  (∀ t : Fields, unmarshal (marshal t) = t) ∧ (∀ bs : Frame, marshal (unmarshal bs) = bs) ∧
  (∀ t : Fields, (marshal t)[0] = lo8 t.hdr ∧ (marshal t)[1] = hi8 t.hdr ∧
    (marshal t)[30] = lo8 t.chk ∧ (marshal t)[31] = hi8 t.chk ∧
    ∀ n (h : n < 14), (marshal t)[2 * n + 2] = lo8 t.slot[n] ∧ (marshal t)[2 * n + 3] = hi8 t.slot[n])

/-- 41_checksum_validator.md R160: `Sum16` is the numeric sum of fields 0 to 14 modulo 65536, and never reads the
trailer bytes. -/
def Obligations.SumIsTheNumericSumModulo65536 : Prop :=
  (∀ bs : Frame,
    (sum16 bs).toNat = ((List.finRange 15).map fun k => (field bs k.castSucc).toNat).sum % 65536) ∧
  (∀ bs cs : Frame, (∀ j (h : j < 30), bs[j] = cs[j]) → sum16 bs = sum16 cs)

/-- 41_checksum_validator.md R163: the checksum is the ones' complement of the sum. -/
def Obligations.ChecksumIsTheOnesComplement : Prop :=
  (∀ s : Half, 0xFFFF - s = ~~~ s) ∧ (∀ bs : Frame, checksum bs = ~~~ (sum16 bs)) ∧
  (∀ bs : Frame, sum16 bs = 0 → checksum bs = 0xFFFF) ∧ (∀ bs : Frame, sum16 bs = 0xFFFF → checksum bs = 0)

/-- 41_checksum_validator.md R169: a frame is valid exactly when its 16 fields sum to `0xFFFF` modulo 65536. -/
def Obligations.ValidExactlyWhenAllFieldsSumToFFFF : Prop :=
  ∀ bs : Frame, frameValid bs = true ↔ fieldSum bs % 65536 = 0xFFFF

/-- 41_checksum_validator.md R171: a change of exactly one byte of a valid frame is always caught. -/
def Obligations.OneByteChangeIsCaught : Prop :=
  ∀ (bs cs : Frame) (j : Nat) (h : j < 32), frameValid bs = true → cs[j] ≠ bs[j] →
    (∀ k (hk : k < 32), k ≠ j → cs[k] = bs[k]) → frameValid cs = false

/-- 41_checksum_validator.md R172: a change that leaves the sum of the 16 fields as it is modulo 65536 is not detected,
and any frame whose fields sum to `0xFFFF` is accepted; so exchanging two fields, or adding to one field what is taken
from another, is not detected. -/
def Obligations.CompensatingChangesAreNotCaught : Prop :=
  (∀ bs cs : Frame, frameValid bs = true → fieldSum cs % 65536 = fieldSum bs % 65536 → frameValid cs = true) ∧
  (∀ cs : Frame, fieldSum cs % 65536 = 0xFFFF → frameValid cs = true) ∧
  ∀ (bs cs : Frame) (j k : Fin 16), j ≠ k → frameValid bs = true →
    (∀ l, l ≠ j → l ≠ k → field cs l = field bs l) →
    (field cs j = field bs k ∧ field cs k = field bs j ∨
      ∃ d, field cs j = field bs j + d ∧ field cs k = field bs k - d) →
    frameValid cs = true

/-- 41_checksum_validator.md R173, R170: for every payload, and every header, the generated trailer makes the frame
valid, whatever the trailer was before. -/
def Obligations.GeneratorAndValidatorAgree : Prop :=
  ∀ (hdr : Half) (P : Vector Half 14) (x c : Half),
    c = checksum (marshal { hdr := hdr, slot := P, chk := x }) →
    frameValid (marshal { hdr := hdr, slot := P, chk := c }) = true ∧
    unmarshal (marshal { hdr := hdr, slot := P, chk := c }) = { hdr := hdr, slot := P, chk := c }

/-! ## The state tables -/

/-- 40_polling_fsm.md R130: the rows of the polling FSM. -/
def Obligations.PollingFsmFollowsItsTable : Prop :=
  (∀ s, s.ptr = 0 ∨ s.len = 0 →
    fsmStart .write s = .next (s.finish .invalidArgument) ∧ fsmStart .wtr s = .next (s.finish .invalidArgument)) ∧
  (∀ s, BufferAccepted s →
    fsmStart .write s = .next { s with idx := 0, cnt := 0, fsm := .wTxRdy } ∧
    fsmStart .wtr s = .next { s with idx := 0, fsm := .rPut }) ∧
  (∀ s, s.fsm = .wTxRdy → s.cnt = s.limit → fsmStep s = .next (s.finish .timeout)) ∧
  (∀ s t, s.fsm = .wTxRdy → s.cnt < s.limit → ask .txReady s = (true, t) →
    fsmStep s = .next { t with fsm := .wPut }) ∧
  (∀ s t, s.fsm = .wTxRdy → s.cnt < s.limit → ask .txReady s = (false, t) →
    fsmStep s = .next { t with cnt := s.cnt + 1, fsm := .wTxRdy }) ∧
  (∀ s b, s.fsm = .wPut → s.mem.read (s.ptr + s.idx) = some b →
    fsmStep s = .next { putByte b s with cnt := 0, fsm := .wTxc }) ∧
  (∀ s, s.fsm = .wTxc → s.cnt = s.limit → fsmStep s = .next (s.finish .timeout)) ∧
  (∀ s t, s.fsm = .wTxc → s.cnt < s.limit → ask .txComplete s = (true, t) → s.idx + 1 = s.len →
    fsmStep s = .next (t.finish .ok)) ∧
  (∀ s t, s.fsm = .wTxc → s.cnt < s.limit → ask .txComplete s = (true, t) → s.idx + 1 < s.len →
    fsmStep s = .next { t with idx := s.idx + 1, cnt := 0, fsm := .wTxRdy }) ∧
  (∀ s t, s.fsm = .wTxc → s.cnt < s.limit → ask .txComplete s = (false, t) →
    fsmStep s = .next { t with cnt := s.cnt + 1, fsm := .wTxc }) ∧
  (∀ s, s.fsm = .rPut → fsmStep s = .next { putByte s.fill s with cnt := 0, fsm := .rRxRdy }) ∧
  (∀ s, s.fsm = .rRxRdy → s.cnt = s.limit → fsmStep s = .next (s.finish .timeout)) ∧
  (∀ s t, s.fsm = .rRxRdy → s.cnt < s.limit → ask .rxReady s = (true, t) →
    fsmStep s = .next { t with fsm := .rGet }) ∧
  (∀ s t, s.fsm = .rRxRdy → s.cnt < s.limit → ask .rxReady s = (false, t) →
    fsmStep s = .next { t with cnt := s.cnt + 1, fsm := .rRxRdy }) ∧
  (∀ s t b, s.fsm = .rGet → getByte s = (b, t) → s.idx + 1 = s.len →
    fsmStep s = .next (State.finish { t with mem := s.mem.write (s.ptr + s.idx) b } .ok)) ∧
  (∀ s t b, s.fsm = .rGet → getByte s = (b, t) → s.idx + 1 < s.len →
    fsmStep s = .next { t with mem := s.mem.write (s.ptr + s.idx) b, idx := s.idx + 1, fsm := .rPut })

/-- 42_frame_codec.md R196: the rows of the decode state machine, for a legal extent (20_memory.md R64). R196 validates the
bytes received; that the row VALIDATING_CHECKSUM reads them back from MEM is the model's inference (log 17). -/
def Obligations.DecodeFsmFollowsItsTable : Prop :=
  (∀ s, s.ptr = 0 → fsmStart .decode s = .next (s.finish .invalidArgument)) ∧
  (∀ s, FrameAccepted s → fsmStart .decode s = .next { s with fsm := .awaitingHeader }) ∧
  (∀ s t, s.fsm = .awaitingHeader → chRecv s = (.channelError, t) →
    fsmStep s = .next { t with fsm := .channelError }) ∧
  (∀ s t bs, s.fsm = .awaitingHeader → chRecv s = (.ok bs, t) →
    ∃ u, fsmStep s = .next u ∧ u = { t with mem := u.mem, fsm := .validatingChecksum } ∧
      u.mem.readFrame s.ptr = some bs ∧
      ∀ x, x < s.ptr ∨ s.ptr + 32 ≤ x → u.mem.read x = s.mem.read x) ∧
  (∀ s bs, s.fsm = .validatingChecksum → s.mem.readFrame s.ptr = some bs →
    fsmStep s = .next { s with fsm := if frameValid bs then .accepted else .rejected }) ∧
  (∀ s, s.fsm = .accepted → fsmStep s = .next (s.finish .ok)) ∧
  (∀ s, s.fsm = .rejected → fsmStep s = .next (s.finish .malformed)) ∧
  (∀ s, s.fsm = .channelError → fsmStep s = .next (s.finish .channelError))

/-- 40_polling_fsm.md R130, 42_frame_codec.md R196, 60_exceptions.md R240: running the state tables from the CMD write
gives exactly what the command's pseudocode gives, within a bounded number of rows; so every command ends. The rows
of ENCODE and RESYNC are the model's own (log 9), and DECODE's table validates the record as read back from MEM, the
model's inference (log 17). -/
def Obligations.StateTablesComputeTheCommands : Prop :=
  ∀ (i : Instr) (s : State),
    ∃ k ≤ 8 + s.len * (2 * s.limit + 2), onNext (fsmStart i s) (fsmRun k) = exec i s

/-- 10_state.md R31, R32: at every row of a running command CNT does not pass LIMIT, IDX stays below `2^ADDR_W`, the
operands stand, and MEM keeps its form. -/
def Obligations.HiddenCountersNeverOverflow : Prop :=
  ∀ (i : Instr) (s t : State) (k : Nat), Inv s → onNext (fsmStart i s) (fsmRun k) = .next t →
    t.cnt ≤ t.limit ∧ t.cnt < 2 ^ t.cfg.cntW ∧ t.idx < 2 ^ t.cfg.addrW ∧
    t.ptr = s.ptr ∧ t.len = s.len ∧ t.fill = s.fill ∧ t.limit = s.limit ∧ t.cfg = s.cfg ∧ t.mem.wf

/-! ## The invariant -/

/-- 10_state.md R41, 00_scope.md R5: the state after reset satisfies the invariant, for every legal choice of the
parameters, the model's own among them. -/
def Obligations.ResetSatisfiesTheInvariant : Prop :=
  (∀ p : Params, p.wellFormed = true → Inv (State.resetWith p)) ∧ Inv State.reset

/-- 10_state.md R20 to R37, 70_reset_and_hazards.md R276: every step keeps the invariant. -/
def Obligations.EveryStepKeepsTheInvariant : Prop :=
  ∀ s t : State, Inv s → step s = .next t → Inv t
end

