-- ==== Sys2Proof/Laws/Mem.lean ====
section
/-!
SUPPORT. What the memory operations do: a read after a write, the canonical form, and the addresses listed.
-/

namespace Sys2Proof.Machine

/-! ## One byte -/

@[simp] theorem read_nil (a : Nat) : Mem.read [] a = none := rfl

@[simp] theorem read_write_same (m : Mem) (a : Nat) (b : Byte) : (m.write a b).read a = some b := by
  induction m with
  | nil => simp [Mem.write, Mem.read]
  | cons c rest ih =>
    obtain ⟨k, d⟩ := c
    simp only [Mem.write]
    split
    · simp [Mem.read]
    · split
      · simp [Mem.read]
      · simp [Mem.read, ih, Ne.symm ‹¬ a = k›]

theorem read_write_ne (m : Mem) {a x : Nat} (b : Byte) (h : x ≠ a) : (m.write a b).read x = m.read x := by
  induction m with
  | nil => simp [Mem.write, Mem.read, h.symm]
  | cons c rest ih =>
    obtain ⟨k, d⟩ := c
    simp only [Mem.write]
    split
    · simp [Mem.read, h.symm]
    · split
      · subst_vars; simp [Mem.read, h.symm]
      · simp [Mem.read, ih]

theorem read_write (m : Mem) (a x : Nat) (b : Byte) :
    (m.write a b).read x = if x = a then some b else m.read x := by
  split
  · subst_vars; exact read_write_same m _ b
  · exact read_write_ne m b ‹_›

theorem write_write_comm_read (m : Mem) {a b : Nat} (c d : Byte) (h : a ≠ b) (x : Nat) :
    ((m.write a c).write b d).read x = ((m.write b d).write a c).read x := by
  simp only [read_write]
  split <;> split <;> simp_all

theorem mem_of_write {m : Mem} {a : Nat} {b : Byte} {c : Host.Cell} (h : c ∈ m.write a b) :
    c = (a, b) ∨ c ∈ m := by
  induction m with
  | nil => simpa [Mem.write] using h
  | cons d rest ih =>
    obtain ⟨k, e⟩ := d
    simp only [Mem.write] at h
    split at h
    · simpa using h
    · split at h
      · rcases List.mem_cons.1 h with h | h <;> simp [h]
      · rcases List.mem_cons.1 h with h | h
        · simp [h]
        · rcases ih h with h | h <;> simp [h]

/-- Every memory operation keeps the canonical form: one byte. -/
theorem write_wf {m : Mem} (h : m.wf) (a : Nat) (b : Byte) : (m.write a b).wf := by
  induction m with
  | nil => simp [Mem.write, Mem.wf]
  | cons c rest ih =>
    obtain ⟨k, d⟩ := c
    have hr := List.pairwise_cons.1 h
    simp only [Mem.write]
    split
    · refine List.pairwise_cons.2 ⟨fun x hx => ?_, h⟩
      rcases List.mem_cons.1 hx with rfl | hx
      · assumption
      · exact Nat.lt_trans ‹a < k› (hr.1 x hx)
    · split
      · subst_vars; exact List.pairwise_cons.2 hr
      · refine List.pairwise_cons.2 ⟨fun x hx => ?_, ih hr.2⟩
        rcases mem_of_write hx with rfl | hx
        · show k < a; omega
        · exact hr.1 x hx

/-! ## Sequences -/

/-- Every memory operation keeps the canonical form: a sequence of bytes. -/
theorem writeBytes_wf {m : Mem} (h : m.wf) (a : Nat) (bs : List Byte) : (m.writeBytes a bs).wf := by
  induction bs generalizing m a with
  | nil => exact h
  | cons b rest ih => exact ih (write_wf h a b) (a + 1)

/-- Every memory operation keeps the canonical form: a field. -/
theorem write16_wf {m : Mem} (h : m.wf) (a : Nat) (w : Half) : (m.write16 a w).wf :=
  write_wf (write_wf h a _) (a + 1) _

/-- A sequence of bytes stored at `a`, read back anywhere. -/
theorem read_writeBytes (m : Mem) (a : Nat) (bs : List Byte) (x : Nat) :
    (m.writeBytes a bs).read x = if a ≤ x ∧ x < a + bs.length then bs[x - a]? else m.read x := by
  induction bs generalizing m a with
  | nil =>
    rw [if_neg (by simp)]
    rfl
  | cons b rest ih =>
    simp only [Mem.writeBytes, ih, read_write, List.length_cons]
    by_cases hxa : x = a
    · subst hxa; simp
    · by_cases h1 : a + 1 ≤ x ∧ x < a + 1 + rest.length
      · have h2 : a ≤ x ∧ x < a + (rest.length + 1) := by omega
        have h3 : x - a = (x - (a + 1)) + 1 := by omega
        simp [h1, h2, h3]
      · have h2 : ¬(a ≤ x ∧ x < a + (rest.length + 1)) := by omega
        rw [if_neg h1, if_neg h2, if_neg hxa]

theorem mem_of_writeBytes {m : Mem} {a : Nat} {bs : List Byte} {c : Host.Cell} (h : c ∈ m.writeBytes a bs) :
    (a ≤ c.1 ∧ c.1 < a + bs.length) ∨ c ∈ m := by
  induction bs generalizing m a with
  | nil => exact .inr h
  | cons b rest ih =>
    rcases ih h with h | h
    · simp; omega
    · rcases mem_of_write h with rfl | h
      · simp
      · exact .inr h

theorem read_write16 (m : Mem) (a x : Nat) (w : Half) :
    (m.write16 a w).read x = if x = a + 1 then some (hi8 w) else if x = a then some (lo8 w) else m.read x := by
  simp only [Mem.write16, read_write]

@[simp] theorem ofBytes_hi_lo (w : Half) : ofBytes (hi8 w) (lo8 w) = w := by
  simp only [ofBytes, hi8, lo8]
  ext i hi
  simp only [BitVec.getElem_append, BitVec.getElem_extractLsb']
  split
  · simp [BitVec.getLsbD_eq_getElem hi]
  · have : 8 + (i - 8) = i := by omega
    simp [this, BitVec.getLsbD_eq_getElem hi]

@[simp] theorem lo8_ofBytes (h l : Byte) : lo8 (ofBytes h l) = l := by
  ext i hi
  have := @BitVec.getLsbD_append 8 8 i h l
  simp only [ofBytes, lo8, BitVec.getElem_extractLsb', Nat.zero_add]
  rw [this, if_pos hi, BitVec.getLsbD_eq_getElem hi]

@[simp] theorem hi8_ofBytes (h l : Byte) : hi8 (ofBytes h l) = h := by
  ext i hi
  have := @BitVec.getLsbD_append 8 8 (8 + i) h l
  simp only [ofBytes, hi8, BitVec.getElem_extractLsb']
  rw [this, if_neg (by omega), Nat.add_sub_cancel_left, BitVec.getLsbD_eq_getElem hi]

@[simp] theorem read16_write16 (m : Mem) (a : Nat) (w : Half) : (m.write16 a w).read16 a = some w := by
  simp [Mem.read16, read_write16]

/-- A field elsewhere is not changed. -/
theorem read16_write16_ne (m : Mem) {a b : Nat} (w : Half) (h : a + 1 < b ∨ b + 1 < a) :
    (m.write16 b w).read16 a = m.read16 a := by
  have h1 : a ≠ b + 1 ∧ a ≠ b ∧ a + 1 ≠ b + 1 ∧ a + 1 ≠ b := by omega
  simp only [Mem.read16, read_write16, if_neg h1.1, if_neg h1.2.1, if_neg h1.2.2.1, if_neg h1.2.2.2]

/-- A field is read exactly when both its bytes hold values (20_memory.md R62). -/
theorem read16_eq_some {m : Mem} {a : Nat} {w : Half} :
    m.read16 a = some w ↔ m.read a = some (lo8 w) ∧ m.read (a + 1) = some (hi8 w) := by
  unfold Mem.read16
  constructor
  · intro h
    split at h
    · rename_i lo hi h1 h2
      cases h
      simp [h1, h2]
    · cases h
  · rintro ⟨h1, h2⟩
    simp [h1, h2]

/-- The frame record at `a` is read exactly when each of its bytes holds a value (41_checksum_validator.md R164). -/
theorem readFrame_eq_some {m : Mem} {a : Nat} {bs : Frame} :
    m.readFrame a = some bs ↔ ∀ j (h : j < 32), m.read (a + j) = some bs[j] := by
  unfold Mem.readFrame
  constructor
  · intro h
    split at h
    · rename_i hall
      simp only [Option.some.injEq] at h
      subst h
      intro j hj
      have := List.all_eq_true.1 hall (m.read (a + j))
        (List.mem_map.2 ⟨j, List.mem_range.2 hj, rfl⟩)
      obtain ⟨b, hb⟩ := Option.isSome_iff_exists.1 this
      simp [hb]
    · cases h
  · intro h
    rw [if_pos]
    · refine congrArg some (Vector.ext fun j hj => ?_)
      rw [Vector.getElem_ofFn]
      show (m.read (a + j)).getD 0 = bs[j]
      rw [h j hj, Option.getD_some]
    · refine List.all_eq_true.2 fun x hx => ?_
      obtain ⟨j, hj, rfl⟩ := List.mem_map.1 hx
      simp [h j (List.mem_range.1 hj)]

/-- The record at `a` after the 32 bytes of `bs` are stored there is `bs`. -/
@[simp] theorem readFrame_writeBytes (m : Mem) (a : Nat) (bs : Frame) :
    (m.writeBytes a bs.toList).readFrame a = some bs := by
  rw [readFrame_eq_some]
  intro j hj
  rw [read_writeBytes, if_pos (by simp; omega)]
  simp [hj]

/-! ## Reset -/

/-- MEM right after reset is in canonical form: it lists nothing (10_state.md R41). -/
theorem reset_mem_wf (p : Params) : (State.resetWith p).mem.wf := List.Pairwise.nil

end Sys2Proof.Machine
end

