-- ==== Sys2Proof/Laws/State.lean ====
section
/-!
SUPPORT. One lemma per field per named update of the state, so that no later proof unfolds a record update.
-/

namespace Sys2Proof.Machine

variable (s : State) (p : Params) (o : OutcomeCode) (b : Byte) (n : Nat) (f : Fsm) (m : Mem) (e : Env)
  (es : List Event)

/-! ## finish -/

@[simp] theorem finish_cfg : (s.finish o).cfg = s.cfg := rfl
@[simp] theorem finish_outcome : (s.finish o).outcome = o := rfl
@[simp] theorem finish_ptr : (s.finish o).ptr = s.ptr := rfl
@[simp] theorem finish_len : (s.finish o).len = s.len := rfl
@[simp] theorem finish_fill : (s.finish o).fill = s.fill := rfl
@[simp] theorem finish_limit : (s.finish o).limit = s.limit := rfl
@[simp] theorem finish_res : (s.finish o).res = s.res := rfl
@[simp] theorem finish_fsm : (s.finish o).fsm = .idle := rfl
@[simp] theorem finish_cnt : (s.finish o).cnt = 0 := rfl
@[simp] theorem finish_idx : (s.finish o).idx = 0 := rfl
@[simp] theorem finish_mem : (s.finish o).mem = s.mem := rfl
@[simp] theorem finish_trace : (s.finish o).trace = s.trace := rfl
@[simp] theorem finish_env : (s.finish o).env = s.env := rfl
@[simp] theorem finish_script : (s.finish o).script = s.script := rfl
@[simp] theorem finish_seen : (s.finish o).seen = s.seen := rfl

/-! ## setCnt -/

@[simp] theorem setCnt_cfg : (s.setCnt n).cfg = s.cfg := rfl
@[simp] theorem setCnt_outcome : (s.setCnt n).outcome = s.outcome := rfl
@[simp] theorem setCnt_ptr : (s.setCnt n).ptr = s.ptr := rfl
@[simp] theorem setCnt_len : (s.setCnt n).len = s.len := rfl
@[simp] theorem setCnt_fill : (s.setCnt n).fill = s.fill := rfl
@[simp] theorem setCnt_limit : (s.setCnt n).limit = s.limit := rfl
@[simp] theorem setCnt_res : (s.setCnt n).res = s.res := rfl
@[simp] theorem setCnt_fsm : (s.setCnt n).fsm = s.fsm := rfl
@[simp] theorem setCnt_cnt : (s.setCnt n).cnt = n := rfl
@[simp] theorem setCnt_idx : (s.setCnt n).idx = s.idx := rfl
@[simp] theorem setCnt_mem : (s.setCnt n).mem = s.mem := rfl
@[simp] theorem setCnt_trace : (s.setCnt n).trace = s.trace := rfl
@[simp] theorem setCnt_env : (s.setCnt n).env = s.env := rfl
@[simp] theorem setCnt_script : (s.setCnt n).script = s.script := rfl
@[simp] theorem setCnt_seen : (s.setCnt n).seen = s.seen := rfl

/-! ## setIdx -/

@[simp] theorem setIdx_cfg : (s.setIdx n).cfg = s.cfg := rfl
@[simp] theorem setIdx_outcome : (s.setIdx n).outcome = s.outcome := rfl
@[simp] theorem setIdx_ptr : (s.setIdx n).ptr = s.ptr := rfl
@[simp] theorem setIdx_len : (s.setIdx n).len = s.len := rfl
@[simp] theorem setIdx_fill : (s.setIdx n).fill = s.fill := rfl
@[simp] theorem setIdx_limit : (s.setIdx n).limit = s.limit := rfl
@[simp] theorem setIdx_res : (s.setIdx n).res = s.res := rfl
@[simp] theorem setIdx_fsm : (s.setIdx n).fsm = s.fsm := rfl
@[simp] theorem setIdx_cnt : (s.setIdx n).cnt = s.cnt := rfl
@[simp] theorem setIdx_idx : (s.setIdx n).idx = n := rfl
@[simp] theorem setIdx_mem : (s.setIdx n).mem = s.mem := rfl
@[simp] theorem setIdx_trace : (s.setIdx n).trace = s.trace := rfl
@[simp] theorem setIdx_env : (s.setIdx n).env = s.env := rfl
@[simp] theorem setIdx_script : (s.setIdx n).script = s.script := rfl
@[simp] theorem setIdx_seen : (s.setIdx n).seen = s.seen := rfl

/-! ## setFsm -/

@[simp] theorem setFsm_cfg : (s.setFsm f).cfg = s.cfg := rfl
@[simp] theorem setFsm_outcome : (s.setFsm f).outcome = s.outcome := rfl
@[simp] theorem setFsm_ptr : (s.setFsm f).ptr = s.ptr := rfl
@[simp] theorem setFsm_len : (s.setFsm f).len = s.len := rfl
@[simp] theorem setFsm_fill : (s.setFsm f).fill = s.fill := rfl
@[simp] theorem setFsm_limit : (s.setFsm f).limit = s.limit := rfl
@[simp] theorem setFsm_res : (s.setFsm f).res = s.res := rfl
@[simp] theorem setFsm_fsm : (s.setFsm f).fsm = f := rfl
@[simp] theorem setFsm_cnt : (s.setFsm f).cnt = s.cnt := rfl
@[simp] theorem setFsm_idx : (s.setFsm f).idx = s.idx := rfl
@[simp] theorem setFsm_mem : (s.setFsm f).mem = s.mem := rfl
@[simp] theorem setFsm_trace : (s.setFsm f).trace = s.trace := rfl
@[simp] theorem setFsm_env : (s.setFsm f).env = s.env := rfl
@[simp] theorem setFsm_script : (s.setFsm f).script = s.script := rfl
@[simp] theorem setFsm_seen : (s.setFsm f).seen = s.seen := rfl

/-! ## setRes -/

@[simp] theorem setRes_cfg : (s.setRes n).cfg = s.cfg := rfl
@[simp] theorem setRes_outcome : (s.setRes n).outcome = s.outcome := rfl
@[simp] theorem setRes_ptr : (s.setRes n).ptr = s.ptr := rfl
@[simp] theorem setRes_len : (s.setRes n).len = s.len := rfl
@[simp] theorem setRes_fill : (s.setRes n).fill = s.fill := rfl
@[simp] theorem setRes_limit : (s.setRes n).limit = s.limit := rfl
@[simp] theorem setRes_res : (s.setRes n).res = n := rfl
@[simp] theorem setRes_fsm : (s.setRes n).fsm = s.fsm := rfl
@[simp] theorem setRes_cnt : (s.setRes n).cnt = s.cnt := rfl
@[simp] theorem setRes_idx : (s.setRes n).idx = s.idx := rfl
@[simp] theorem setRes_mem : (s.setRes n).mem = s.mem := rfl
@[simp] theorem setRes_trace : (s.setRes n).trace = s.trace := rfl
@[simp] theorem setRes_env : (s.setRes n).env = s.env := rfl
@[simp] theorem setRes_script : (s.setRes n).script = s.script := rfl
@[simp] theorem setRes_seen : (s.setRes n).seen = s.seen := rfl

/-! ## setMem -/

@[simp] theorem setMem_cfg : (s.setMem m).cfg = s.cfg := rfl
@[simp] theorem setMem_outcome : (s.setMem m).outcome = s.outcome := rfl
@[simp] theorem setMem_ptr : (s.setMem m).ptr = s.ptr := rfl
@[simp] theorem setMem_len : (s.setMem m).len = s.len := rfl
@[simp] theorem setMem_fill : (s.setMem m).fill = s.fill := rfl
@[simp] theorem setMem_limit : (s.setMem m).limit = s.limit := rfl
@[simp] theorem setMem_res : (s.setMem m).res = s.res := rfl
@[simp] theorem setMem_fsm : (s.setMem m).fsm = s.fsm := rfl
@[simp] theorem setMem_cnt : (s.setMem m).cnt = s.cnt := rfl
@[simp] theorem setMem_idx : (s.setMem m).idx = s.idx := rfl
@[simp] theorem setMem_mem : (s.setMem m).mem = m := rfl
@[simp] theorem setMem_trace : (s.setMem m).trace = s.trace := rfl
@[simp] theorem setMem_env : (s.setMem m).env = s.env := rfl
@[simp] theorem setMem_script : (s.setMem m).script = s.script := rfl
@[simp] theorem setMem_seen : (s.setMem m).seen = s.seen := rfl

/-! ## heard -/

@[simp] theorem heard_cfg : (s.heard e es).cfg = s.cfg := rfl
@[simp] theorem heard_outcome : (s.heard e es).outcome = s.outcome := rfl
@[simp] theorem heard_ptr : (s.heard e es).ptr = s.ptr := rfl
@[simp] theorem heard_len : (s.heard e es).len = s.len := rfl
@[simp] theorem heard_fill : (s.heard e es).fill = s.fill := rfl
@[simp] theorem heard_limit : (s.heard e es).limit = s.limit := rfl
@[simp] theorem heard_res : (s.heard e es).res = s.res := rfl
@[simp] theorem heard_fsm : (s.heard e es).fsm = s.fsm := rfl
@[simp] theorem heard_cnt : (s.heard e es).cnt = s.cnt := rfl
@[simp] theorem heard_idx : (s.heard e es).idx = s.idx := rfl
@[simp] theorem heard_mem : (s.heard e es).mem = s.mem := rfl
@[simp] theorem heard_trace : (s.heard e es).trace = s.trace ++ es := rfl
@[simp] theorem heard_env : (s.heard e es).env = e := rfl
@[simp] theorem heard_script : (s.heard e es).script = s.script := rfl
@[simp] theorem heard_seen : (s.heard e es).seen = s.seen := rfl

/-! ## putByte -/

@[simp] theorem putByte_cfg : (putByte b s).cfg = s.cfg := rfl
@[simp] theorem putByte_outcome : (putByte b s).outcome = s.outcome := rfl
@[simp] theorem putByte_ptr : (putByte b s).ptr = s.ptr := rfl
@[simp] theorem putByte_len : (putByte b s).len = s.len := rfl
@[simp] theorem putByte_fill : (putByte b s).fill = s.fill := rfl
@[simp] theorem putByte_limit : (putByte b s).limit = s.limit := rfl
@[simp] theorem putByte_res : (putByte b s).res = s.res := rfl
@[simp] theorem putByte_fsm : (putByte b s).fsm = s.fsm := rfl
@[simp] theorem putByte_cnt : (putByte b s).cnt = s.cnt := rfl
@[simp] theorem putByte_idx : (putByte b s).idx = s.idx := rfl
@[simp] theorem putByte_mem : (putByte b s).mem = s.mem := rfl
@[simp] theorem putByte_trace : (putByte b s).trace = s.trace ++ [.put b] := rfl
@[simp] theorem putByte_env : (putByte b s).env = s.env := rfl
@[simp] theorem putByte_script : (putByte b s).script = s.script := rfl
@[simp] theorem putByte_seen : (putByte b s).seen = s.seen := rfl

/-! ## blockReset -/

@[simp] theorem blockReset_cfg : s.blockReset.cfg = s.cfg := rfl
@[simp] theorem blockReset_outcome : s.blockReset.outcome = .none := rfl
@[simp] theorem blockReset_ptr : s.blockReset.ptr = 0 := rfl
@[simp] theorem blockReset_len : s.blockReset.len = 0 := rfl
@[simp] theorem blockReset_fill : s.blockReset.fill = 0 := rfl
@[simp] theorem blockReset_limit : s.blockReset.limit = s.cfg.limitReset := rfl
@[simp] theorem blockReset_res : s.blockReset.res = 0 := rfl
@[simp] theorem blockReset_fsm : s.blockReset.fsm = .idle := rfl
@[simp] theorem blockReset_cnt : s.blockReset.cnt = 0 := rfl
@[simp] theorem blockReset_idx : s.blockReset.idx = 0 := rfl
@[simp] theorem blockReset_mem : s.blockReset.mem = s.mem := rfl
@[simp] theorem blockReset_trace : s.blockReset.trace = s.trace := rfl
@[simp] theorem blockReset_env : s.blockReset.env = s.env := rfl
@[simp] theorem blockReset_script : s.blockReset.script = s.script := rfl
@[simp] theorem blockReset_seen : s.blockReset.seen = s.seen := rfl

/-! ## resetWith -/

@[simp] theorem resetWith_cfg : (State.resetWith p).cfg = p := rfl
@[simp] theorem resetWith_outcome : (State.resetWith p).outcome = .none := rfl
@[simp] theorem resetWith_ptr : (State.resetWith p).ptr = 0 := rfl
@[simp] theorem resetWith_len : (State.resetWith p).len = 0 := rfl
@[simp] theorem resetWith_fill : (State.resetWith p).fill = 0 := rfl
@[simp] theorem resetWith_limit : (State.resetWith p).limit = p.limitReset := rfl
@[simp] theorem resetWith_res : (State.resetWith p).res = 0 := rfl
@[simp] theorem resetWith_fsm : (State.resetWith p).fsm = .idle := rfl
@[simp] theorem resetWith_cnt : (State.resetWith p).cnt = 0 := rfl
@[simp] theorem resetWith_idx : (State.resetWith p).idx = 0 := rfl
@[simp] theorem resetWith_mem : (State.resetWith p).mem = [] := rfl
@[simp] theorem resetWith_trace : (State.resetWith p).trace = [] := rfl
@[simp] theorem resetWith_script : (State.resetWith p).script = [] := rfl
@[simp] theorem resetWith_seen : (State.resetWith p).seen = [] := rfl

/-! ## Two updates in a row -/

@[simp] theorem heard_heard (e' : Env) (es' : List Event) :
    (s.heard e es).heard e' es' = s.heard e' (es ++ es') := by
  simp [State.heard, List.append_assoc]

@[simp] theorem heard_nil : s.heard s.env [] = s := by simp [State.heard]

theorem putByte_eq_heard : putByte b s = s.heard s.env [.put b] := rfl

/-- `finish` overwrites the hidden state and the outcome (60_exceptions.md R236). -/
@[simp] theorem finish_setCnt : (s.setCnt n).finish o = s.finish o := rfl

@[simp] theorem finish_setIdx : (s.setIdx n).finish o = s.finish o := rfl

@[simp] theorem finish_setFsm : (s.setFsm f).finish o = s.finish o := rfl

@[simp] theorem finish_finish (o' : OutcomeCode) : (s.finish o').finish o = s.finish o := rfl

@[simp] theorem setCnt_heard : (s.setCnt n).heard e es = (s.heard e es).setCnt n := rfl

@[simp] theorem setIdx_heard : (s.setIdx n).heard e es = (s.heard e es).setIdx n := rfl

@[simp] theorem setFsm_heard : (s.setFsm f).heard e es = (s.heard e es).setFsm f := rfl

@[simp] theorem setMem_heard : (s.setMem m).heard e es = (s.heard e es).setMem m := rfl

@[simp] theorem setRes_heard : (s.setRes n).heard e es = (s.heard e es).setRes n := rfl

@[simp] theorem setMem_setMem (m' : Mem) : (s.setMem m).setMem m' = s.setMem m' := rfl

@[simp] theorem setRes_setRes (n' : Nat) : (s.setRes n).setRes n' = s.setRes n' := rfl

@[simp] theorem setCnt_setCnt (n' : Nat) : (s.setCnt n).setCnt n' = s.setCnt n' := rfl

@[simp] theorem setIdx_setIdx (n' : Nat) : (s.setIdx n).setIdx n' = s.setIdx n' := rfl

@[simp] theorem setFsm_setFsm (f' : Fsm) : (s.setFsm f).setFsm f' = s.setFsm f' := rfl

@[simp] theorem setIdx_setCnt (i : Nat) : (s.setIdx i).setCnt n = (s.setCnt n).setIdx i := rfl

@[simp] theorem setFsm_setCnt : (s.setFsm f).setCnt n = (s.setCnt n).setFsm f := rfl

@[simp] theorem setFsm_setIdx : (s.setFsm f).setIdx n = (s.setIdx n).setFsm f := rfl

@[simp] theorem setCnt_setMem : (s.setCnt n).setMem m = (s.setMem m).setCnt n := rfl

@[simp] theorem setIdx_setMem : (s.setIdx n).setMem m = (s.setMem m).setIdx n := rfl

@[simp] theorem setFsm_setMem : (s.setFsm f).setMem m = (s.setMem m).setFsm f := rfl

@[simp] theorem setCnt_setRes (a : Nat) : (s.setCnt n).setRes a = (s.setRes a).setCnt n := rfl

@[simp] theorem setIdx_setRes (a : Nat) : (s.setIdx n).setRes a = (s.setRes a).setIdx n := rfl

@[simp] theorem setFsm_setRes (a : Nat) : (s.setFsm f).setRes a = (s.setRes a).setFsm f := rfl

/-! ## The entry of a command reads only the operand registers and the parameters -/

theorem argInvalid_congr (i : Instr) (t : State) (hp : t.ptr = s.ptr) (hl : t.len = s.len) :
    argInvalid i t = argInvalid i s := by
  cases i <;> simp [argInvalid, hp, hl]

theorem extentLen_congr (i : Instr) (t : State) (hl : t.len = s.len) : extentLen i t = extentLen i s := by
  cases i <;> simp [extentLen, hl]

theorem legalExtent_congr (i : Instr) (t : State) (hp : t.ptr = s.ptr) (hl : t.len = s.len) (hc : t.cfg = s.cfg) :
    legalExtent i t = legalExtent i s := by
  simp [legalExtent, extentLen_congr s i t hl, hp, hc]

end Sys2Proof.Machine
end

