-- ==== Sys2Proof/Laws/Ops.lean ====
section
/-!
SUPPORT. What the shared operations can do, said once: environment calls, the bounded poll, the entry of a command.
-/

namespace Sys2Proof.Machine

/-! ## Outcomes -/

@[simp] theorem onNext_next (s : State) (f : State → Result) : onNext (.next s) f = f s := rfl

@[simp] theorem onNext_refused (r : Refusal) (f : State → Result) : onNext (.refused r) f = .refused r := rfl

theorem onNext_eq_next {r : Result} {f : State → Result} {t : State} (h : onNext r f = .next t) :
    ∃ s, r = .next s ∧ f s = .next t := by
  cases r with
  | next s => exact ⟨s, rfl, h⟩
  | fault e => exact e.rec
  | refused e => cases h

/-! ## Environment calls -/

@[simp] theorem answers_withAnswers (e : Env) (p : Pred) (l : List Bool) : (e.withAnswers p l).answers p = l := by
  cases p <;> rfl

theorem answers_withAnswers_ne (e : Env) {p q : Pred} (l : List Bool) (h : q ≠ p) :
    (e.withAnswers p l).answers q = e.answers q := by
  cases p <;> cases q <;> first | rfl | exact absurd rfl h

/-- Setting the answers of `p` twice keeps the second list. -/
@[simp] theorem withAnswers_withAnswers (e : Env) (p : Pred) (l m : List Bool) :
    (e.withAnswers p l).withAnswers p m = e.withAnswers p m := by
  cases p <;> rfl

/-- One poll, whatever is answered (00_scope.md R9, R10). -/
theorem ask_cases (p : Pred) (s : State) : ∃ r e, ask p s = (r, s.heard e [p.event r]) := ⟨_, _, rfl⟩

/-- One poll when the next answer is known. -/
theorem ask_of_answers {p : Pred} {s : State} {r : Bool} {rest : List Bool} (h : s.env.answers p = r :: rest) :
    ask p s = (r, s.heard (s.env.withAnswers p rest) [p.event r]) := by
  simp [ask, Env.nextPred, h]

theorem getByte_cases (s : State) : ∃ b e, getByte s = (b, s.heard e [.get b]) := ⟨_, _, rfl⟩

theorem getByte_of_answers {s : State} {b : Byte} {rest : List Byte} (h : s.env.getByte = b :: rest) :
    getByte s = (b, s.heard { s.env with getByte := rest } [.get b]) := by
  simp [getByte, Env.nextByte, h]

theorem chSend_cases (bs : Frame) (s : State) : ∃ o e, chSend bs s = (o, s.heard e [.send bs o]) := ⟨_, _, rfl⟩

theorem chSend_of_answers {bs : Frame} {s : State} {o : ChOutcome} {rest : List ChOutcome}
    (h : s.env.send = o :: rest) : chSend bs s = (o, s.heard { s.env with send := rest } [.send bs o]) := by
  simp [chSend, Env.nextSend, h]

theorem chRecv_cases (s : State) : ∃ a e, chRecv s = (a, s.heard e [.recv a]) := ⟨_, _, rfl⟩

theorem chRecv_of_answers {s : State} {a : RecvAnswer} {rest : List RecvAnswer} (h : s.env.recv = a :: rest) :
    chRecv s = (a, s.heard { s.env with recv := rest } [.recv a]) := by
  simp [chRecv, Env.nextRecv, h]

/-! ## The bounded poll -/

@[simp] theorem pollLoop_zero (p : Pred) (s : State) : pollLoop p 0 s = (.timeout, s) := rfl

/-- The events of a wait answered at the poll numbered `k + 1`. -/
abbrev readyPolls (p : Pred) (k : Nat) : List Event := List.replicate k (p.event false) ++ [p.event true]

/-- The events of a wait that is not answered. -/
abbrev timeoutPolls (p : Pred) (n : Nat) : List Event := List.replicate n (p.event false)

/-- The polls of a wait that is answered at the poll numbered `k + 1`, and of a wait that is not. -/
theorem pollLoop_cases (p : Pred) (n : Nat) (s : State) :
    (∃ k e, k < n ∧ pollLoop p n s = (.ready, (s.heard e (readyPolls p k)).setCnt (s.cnt + k))) ∨
    (∃ e, pollLoop p n s = (.timeout, (s.heard e (timeoutPolls p n)).setCnt (s.cnt + n))) := by
  induction n generalizing s with
  | zero => exact .inr ⟨s.env, by simp; rfl⟩
  | succ n ih =>
    obtain ⟨r, e, hr⟩ := ask_cases p s
    cases r with
    | true => exact .inl ⟨0, e, by omega, by rw [pollLoop, hr]; rfl⟩
    | false =>
      rcases ih ((s.heard e [p.event false]).setCnt (s.cnt + 1)) with ⟨k, e', hk, h⟩ | ⟨e', h⟩
      · refine .inl ⟨k + 1, e', by omega, ?_⟩
        rw [pollLoop, hr]
        simpa [readyPolls, List.replicate_succ, Nat.add_assoc, Nat.add_comm 1] using h
      · refine .inr ⟨e', ?_⟩
        rw [pollLoop, hr]
        simpa [timeoutPolls, List.replicate_succ, Nat.add_assoc, Nat.add_comm 1] using h

/-- Everything a wait can do (40_polling_fsm.md R120, R121). -/
theorem poll_cases (p : Pred) (s : State) :
    (∃ k e, k < s.limit ∧ poll p s = (.ready, (s.heard e (readyPolls p k)).setCnt k)) ∨
    (∃ e, poll p s = (.timeout, (s.heard e (timeoutPolls p s.limit)).setCnt s.limit)) := by
  simpa [poll] using pollLoop_cases p s.limit (s.setCnt 0)

/-- A wait does not read the CNT it finds. -/
@[simp] theorem poll_setCnt (p : Pred) (s : State) (c : Nat) : poll p (s.setCnt c) = poll p s := rfl

/-! ## The entry of a command -/

theorem enter_invalid {i : Instr} {s : State} (body : Result) (h : argInvalid i s = true) :
    enter i s body = .next (rejectArgs i s) := by
  simp [enter, h]

theorem enter_accepted {i : Instr} {s : State} (body : Result) (h : argInvalid i s = false)
    (hl : legalExtent i s = true) : enter i s body = body := by
  simp [enter, h, hl]

theorem enter_illegal {i : Instr} {s : State} (body : Result) (h : argInvalid i s = false)
    (hl : legalExtent i s = false) : enter i s body = .refused .illegalExtent := by
  simp [enter, h, hl]

/-- What the entry of a command can answer. -/
theorem enter_eq_next {i : Instr} {s t : State} {body : Result} (h : enter i s body = .next t) :
    (argInvalid i s = true ∧ t = rejectArgs i s) ∨
    (argInvalid i s = false ∧ legalExtent i s = true ∧ body = .next t) := by
  unfold enter at h
  split at h
  · rename_i ha
    cases h
    exact .inl ⟨ha, rfl⟩
  · split at h
    · rename_i ha hl
      exact .inr ⟨by simpa using ha, hl, h⟩
    · cases h

/-- A legal extent, address by address (20_memory.md R64). -/
theorem legalExtent_iff {i : Instr} {s : State} :
    legalExtent i s = true ↔
      s.ptr + extentLen i s - 1 < 2 ^ s.cfg.addrW ∧ ∀ j < extentLen i s, memValid s.cfg (s.ptr + j) = true := by
  simp [legalExtent]

/-- Every address of a legal extent is an address of MEM that holds memory. -/
theorem isMemory_of_legalExtent {i : Instr} {s : State} (h : legalExtent i s = true) {j : Nat}
    (hj : j < extentLen i s) : isMemory s.cfg (s.ptr + j) = true := by
  obtain ⟨h1, h2⟩ := legalExtent_iff.1 h
  simp only [isMemory, Bool.and_eq_true, decide_eq_true_eq]
  exact ⟨by omega, h2 j hj⟩

/-- The end of a command with invalid arguments, field by field (60_exceptions.md R234). -/
theorem rejectArgs_eq (i : Instr) (s : State) :
    rejectArgs i s =
      { s with outcome := .invalidArgument, fsm := .idle, cnt := 0, idx := 0,
               res := if i = .resync then 0 else s.res } := by
  cases i <;> rfl

end Sys2Proof.Machine
end

