-- ==== Sys2Proof/Laws/Accepted.lean ====
section
/-!
SUPPORT. The premises of Safety.lean against the checks of Operands.lean.
-/

namespace Sys2Proof.Machine

theorem memValid_iff {p : Params} {a : Nat} :
    memValid p a = true ↔ ∃ r ∈ p.regions, r.base ≤ a ∧ a < r.base + r.size := by
  simp [memValid, List.any_eq_true]

/-- A legal extent of at least one byte is a backed run of addresses (20_memory.md R64). -/
theorem legalExtent_iff_backed {i : Instr} {s : State} (h : extentLen i s ≠ 0) :
    legalExtent i s = true ↔ Backed s (extentLen i s) := by
  rw [legalExtent_iff, Backed]
  simp only [memValid_iff]
  constructor
  · exact fun ⟨h1, h2⟩ => ⟨by omega, h2⟩
  · exact fun ⟨h1, h2⟩ => ⟨by omega, h2⟩

/-- The commands with a buffer and a length. -/
theorem BufferAccepted.entry {s : State} (h : BufferAccepted s) {i : Instr} (hi : i ≠ .encode) (hd : i ≠ .decode) :
    argInvalid i s = false ∧ legalExtent i s = true := by
  obtain ⟨h1, h2, h3⟩ := h
  cases i <;> first
    | exact absurd rfl hi
    | exact absurd rfl hd
    | exact ⟨by simp [argInvalid, h1, h2], (legalExtent_iff_backed (by simpa [extentLen] using h2)).2 h3⟩

/-- The commands with a frame record. -/
theorem FrameAccepted.entry {s : State} (h : FrameAccepted s) {i : Instr} (hi : i = .encode ∨ i = .decode) :
    argInvalid i s = false ∧ legalExtent i s = true := by
  obtain ⟨h1, h2⟩ := h
  rcases hi with rfl | rfl <;>
    exact ⟨by simp [argInvalid, h1], (legalExtent_iff_backed (by simp [extentLen, Config.frameLen])).2 h2⟩

/-- A command past its entry. -/
theorem enter_buffer {s : State} (h : BufferAccepted s) {i : Instr} (hi : i ≠ .encode) (hd : i ≠ .decode)
    (body : Result) : enter i s body = body :=
  enter_accepted body (h.entry hi hd).1 (h.entry hi hd).2

theorem enter_frame {s : State} (h : FrameAccepted s) {i : Instr} (hi : i = .encode ∨ i = .decode)
    (body : Result) : enter i s body = body :=
  enter_accepted body (h.entry hi).1 (h.entry hi).2

/-! ## Bytes standing in MEM -/

theorem holdsBytes_writeBytes (m : Mem) (a : Nat) (bs : List Byte) : HoldsBytes (m.writeBytes a bs) a bs := by
  intro j hj
  rw [read_writeBytes, if_pos (by omega)]
  simp [hj]

theorem read_writeBytes_outside (m : Mem) (a : Nat) (bs : List Byte) {x : Nat} (h : x < a ∨ a + bs.length ≤ x) :
    (m.writeBytes a bs).read x = m.read x := by
  rw [read_writeBytes, if_neg (by omega)]

end Sys2Proof.Machine
end

