-- ==== Sys2Proof/Laws/Commands.lean ====
section
/-!
SUPPORT. What the body of each command can do when it answers a next state: the fields it may change.
-/

namespace Sys2Proof.Machine

/-- The loop of WRITE changes the outcome, the environment and the trace (40_polling_fsm.md R124). -/
theorem sendLoop_frame {n : Nat} {s t : State} (h : sendLoop n s = .next t) :
    ∃ o e es, (o = .ok ∨ o = .timeout) ∧ t = (s.heard e es).finish o := by
  induction n generalizing s with
  | zero => cases h; exact ⟨.ok, s.env, [], .inl rfl, by simp⟩
  | succ n ih =>
    rcases poll_cases .txReady s with ⟨k, e, -, hp⟩ | ⟨e, hp⟩ <;> rw [sendLoop, hp] at h <;> dsimp only at h
    · split at h
      · cases h
      · rename_i b _
        rcases poll_cases .txComplete (putByte b ((s.heard e (readyPolls .txReady k)).setCnt k)) with
          ⟨k', e', -, hp'⟩ | ⟨e', hp'⟩ <;> rw [hp'] at h <;> dsimp only at h
        · obtain ⟨o, e'', es, ho, rfl⟩ := ih h
          exact ⟨o, e'', _, ho, by simp [putByte_eq_heard]; rfl⟩
        · cases h
          exact ⟨.timeout, e', _, .inr rfl, by simp [putByte_eq_heard]; rfl⟩
    · cases h
      exact ⟨.timeout, e, _, .inr rfl, by simp; rfl⟩

/-- The loop of WTR changes the outcome, the environment, the trace, and MEM in the `n` bytes from PTR + IDX
(40_polling_fsm.md R126). -/
theorem recvLoop_frame (n : Nat) (s : State) :
    ∃ o e es bs, (o = .ok ∨ o = .timeout) ∧ bs.length ≤ n ∧
      recvLoop n s = .next (((s.heard e es).setMem (s.mem.writeBytes (s.ptr + s.idx) bs)).finish o) := by
  induction n generalizing s with
  | zero => exact ⟨.ok, s.env, [], [], .inl rfl, by simp, by simp [recvLoop, Mem.writeBytes]; rfl⟩
  | succ n ih =>
    rcases poll_cases .rxReady (putByte s.fill s) with ⟨k, e, -, hp⟩ | ⟨e, hp⟩
    · obtain ⟨b, e', hg⟩ := getByte_cases (((putByte s.fill s).heard e (readyPolls .rxReady k)).setCnt k)
      simp only [recvLoop, hp, hg]
      obtain ⟨o, e'', es, bs, ho, hb, ht⟩ := ih _
      refine ⟨o, e'', .put s.fill :: (readyPolls .rxReady k ++ .get b :: es), b :: bs, ho, by simpa using hb,
        ht.trans ?_⟩
      simp [putByte_eq_heard, Mem.writeBytes, Nat.add_assoc]
    · refine ⟨.timeout, e, .put s.fill :: timeoutPolls .rxReady s.limit, [], .inr rfl, by simp, ?_⟩
      rw [recvLoop, hp]
      simp [putByte_eq_heard, Mem.writeBytes]
      rfl

/-- The send of ENCODE (42_frame_codec.md R192). -/
theorem sendRecord_cases (bs : Frame) (s : State) :
    ∃ o e, sendRecord bs s = (s.heard e [.send bs o]).finish (if o = .ok then .ok else .channelError) := by
  obtain ⟨o, e, h⟩ := chSend_cases bs s
  cases o <;> exact ⟨_, e, by rw [sendRecord, h]; rfl⟩

/-- ENCODE after its entry: MEM becomes the encoded record, its 32 bytes are sent (42_frame_codec.md R192). -/
theorem encodeBody_frame {s t : State} (h : encodeBody s = .next t) :
    ∃ m bs o e, encodeRecord s.mem s.ptr = some (m, bs) ∧
      t = ((s.heard e [.send bs o]).setMem m).finish (if o = .ok then .ok else .channelError) := by
  unfold encodeBody at h
  split at h
  · cases h
  · rename_i m bs he
    cases h
    obtain ⟨o, e, hs⟩ := sendRecord_cases bs (s.setMem m)
    exact ⟨m, bs, o, e, he, hs⟩

/-- What the transformation of ENCODE stores: the header and the trailer, nothing else (42_frame_codec.md R192). -/
theorem encodeRecord_eq_some {m m' : Mem} {a : Nat} {bs : Frame} (h : encodeRecord m a = some (m', bs)) :
    ∃ c, recordTrailer (m.write16 a Config.header) a = some c ∧
      m' = (m.write16 a Config.header).write16 (a + 30) c ∧ m'.readFrame a = some bs := by
  unfold encodeRecord at h
  split at h
  · cases h
  · rename_i c hc
    split at h
    · cases h
    · rename_i bs' hb
      cases h
      exact ⟨c, hc, rfl, hb⟩

/-- DECODE after its entry: always a next state; MEM is filled only on ok (42_frame_codec.md R194). -/
theorem decodeBody_cases (s : State) :
    (∃ e, decodeBody s = .next ((s.heard e [.recv .channelError]).finish .channelError)) ∨
    (∃ bs e, decodeBody s =
      .next (((s.heard e [.recv (.ok bs)]).setMem (s.mem.writeBytes s.ptr bs.toList)).finish
        (if frameValid bs then .ok else .malformed))) := by
  obtain ⟨a, e, h⟩ := chRecv_cases s
  cases a with
  | channelError => exact .inl ⟨e, by rw [decodeBody, h]⟩
  | ok bs => exact .inr ⟨bs, e, by rw [decodeBody, h]; rfl⟩

/-- The scan of RESYNC changes the outcome and RES (42_frame_codec.md R200). -/
theorem scanLoop_frame {n : Nat} {s t : State} (h : scanLoop n s = .next t) :
    t = (s.setRes 0).finish .notFound ∨ ∃ k < n, t = (s.setRes (s.ptr + (s.idx + k))).finish .ok := by
  induction n generalizing s with
  | zero => cases h; exact .inl rfl
  | succ n ih =>
    rw [scanLoop] at h
    split at h
    · cases h
    · cases h; exact .inr ⟨0, by omega, rfl⟩
    · rcases ih h with rfl | ⟨k, hk, rfl⟩
      · exact .inl (by simp)
      · exact .inr ⟨k + 1, by omega, by simp [Nat.add_assoc, Nat.add_comm 1]⟩

end Sys2Proof.Machine
end

