-- ==== Sys2Proof/Laws/Exec.lean ====
section
/-!
SUPPORT. What a whole command can do, from its entry on: one inversion lemma per command, and the frame common to all.
-/

namespace Sys2Proof.Machine

@[simp] theorem rejectArgs_outcome (i : Instr) (s : State) : (rejectArgs i s).outcome = .invalidArgument := by
  cases i <;> rfl

@[simp] theorem rejectArgs_mem (i : Instr) (s : State) : (rejectArgs i s).mem = s.mem := by
  cases i <;> rfl

@[simp] theorem rejectArgs_env (i : Instr) (s : State) : (rejectArgs i s).env = s.env := by
  cases i <;> rfl

@[simp] theorem rejectArgs_trace (i : Instr) (s : State) : (rejectArgs i s).trace = s.trace := by
  cases i <;> rfl

/-- WRITE that answers a next state (40_polling_fsm.md R124). -/
theorem execWrite_cases {s t : State} (h : execWrite s = .next t) :
    (argInvalid .write s = true ∧ t = rejectArgs .write s) ∨
    (argInvalid .write s = false ∧ legalExtent .write s = true ∧
      ∃ o e es, (o = .ok ∨ o = .timeout) ∧ t = (s.heard e es).finish o) := by
  rcases enter_eq_next h with h | ⟨ha, hl, h⟩
  · exact .inl h
  · obtain ⟨o, e, es, ho, rfl⟩ := sendLoop_frame h
    exact .inr ⟨ha, hl, o, e, es, ho, rfl⟩

/-- WTR that answers a next state (40_polling_fsm.md R126). -/
theorem execWtr_cases {s t : State} (h : execWtr s = .next t) :
    (argInvalid .wtr s = true ∧ t = rejectArgs .wtr s) ∨
    (argInvalid .wtr s = false ∧ legalExtent .wtr s = true ∧
      ∃ o e es bs, (o = .ok ∨ o = .timeout) ∧ bs.length ≤ s.len ∧
        t = ((s.heard e es).setMem (s.mem.writeBytes s.ptr bs)).finish o) := by
  rcases enter_eq_next h with h | ⟨ha, hl, h⟩
  · exact .inl h
  · obtain ⟨o, e, es, bs, ho, hb, ht⟩ := recvLoop_frame s.len (s.setIdx 0)
    rw [h] at ht
    cases ht
    exact .inr ⟨ha, hl, o, e, es, bs, ho, hb, rfl⟩

/-- ENCODE that answers a next state (42_frame_codec.md R192). -/
theorem execEncode_cases {s t : State} (h : execEncode s = .next t) :
    (argInvalid .encode s = true ∧ t = rejectArgs .encode s) ∨
    (argInvalid .encode s = false ∧ legalExtent .encode s = true ∧
      ∃ m bs o e, encodeRecord s.mem s.ptr = some (m, bs) ∧
        t = ((s.heard e [.send bs o]).setMem m).finish (if o = .ok then .ok else .channelError)) := by
  rcases enter_eq_next h with h | ⟨ha, hl, h⟩
  · exact .inl h
  · exact .inr ⟨ha, hl, encodeBody_frame h⟩

/-- DECODE that answers a next state (42_frame_codec.md R194). -/
theorem execDecode_cases {s t : State} (h : execDecode s = .next t) :
    (argInvalid .decode s = true ∧ t = rejectArgs .decode s) ∨
    (argInvalid .decode s = false ∧ legalExtent .decode s = true ∧
      ((∃ e, t = (s.heard e [.recv .channelError]).finish .channelError) ∨
        ∃ bs e, t = ((s.heard e [.recv (.ok bs)]).setMem (s.mem.writeBytes s.ptr bs.toList)).finish
          (if frameValid bs then .ok else .malformed))) := by
  rcases enter_eq_next h with h | ⟨ha, hl, h⟩
  · exact .inl h
  · refine .inr ⟨ha, hl, ?_⟩
    rcases decodeBody_cases s with ⟨e, hd⟩ | ⟨bs, e, hd⟩ <;> rw [h] at hd <;> cases hd
    · exact .inl ⟨e, rfl⟩
    · exact .inr ⟨bs, e, rfl⟩

/-- RESYNC that answers a next state (42_frame_codec.md R200). -/
theorem execResync_cases {s t : State} (h : execResync s = .next t) :
    (argInvalid .resync s = true ∧ t = rejectArgs .resync s) ∨
    (argInvalid .resync s = false ∧ legalExtent .resync s = true ∧
      (t = (s.setRes 0).finish .notFound ∨ ∃ k < s.len - 1, t = (s.setRes (s.ptr + k)).finish .ok)) := by
  rcases enter_eq_next h with h | ⟨ha, hl, h⟩
  · exact .inl h
  · refine .inr ⟨ha, hl, ?_⟩
    rcases scanLoop_frame h with rfl | ⟨k, hk, rfl⟩
    · exact .inl rfl
    · exact .inr ⟨k, hk, by simp⟩

/-- All that any command changes: the outcome with the hidden state cleared, the environment and the trace, MEM, and
RES for RESYNC (30_encoding.md R91). -/
theorem exec_frame {i : Instr} {s t : State} (h : exec i s = .next t) :
    ∃ o e es m r, t = (((s.heard e es).setMem m).setRes r).finish o ∧ (i ≠ .resync → r = s.res) ∧
      (i = .write ∨ i = .resync → m = s.mem) := by
  cases i with
  | write =>
    rcases execWrite_cases h with ⟨-, rfl⟩ | ⟨-, -, o, e, es, -, rfl⟩
    · exact ⟨.invalidArgument, s.env, [], s.mem, s.res, by simp [rejectArgs]; rfl, fun _ => rfl, fun _ => rfl⟩
    · exact ⟨o, e, es, s.mem, s.res, rfl, fun _ => rfl, fun _ => rfl⟩
  | wtr =>
    rcases execWtr_cases h with ⟨-, rfl⟩ | ⟨-, -, o, e, es, bs, -, -, rfl⟩
    · exact ⟨.invalidArgument, s.env, [], s.mem, s.res, by simp [rejectArgs]; rfl, fun _ => rfl, by simp⟩
    · exact ⟨o, e, es, s.mem.writeBytes s.ptr bs, s.res, rfl, fun _ => rfl, by simp⟩
  | encode =>
    rcases execEncode_cases h with ⟨-, rfl⟩ | ⟨-, -, m, bs, o, e, -, rfl⟩
    · exact ⟨.invalidArgument, s.env, [], s.mem, s.res, by simp [rejectArgs]; rfl, fun _ => rfl, by simp⟩
    · exact ⟨if o = .ok then .ok else .channelError, e, [.send bs o], m, s.res, rfl, fun _ => rfl, by simp⟩
  | decode =>
    rcases execDecode_cases h with ⟨-, rfl⟩ | ⟨-, -, ⟨e, rfl⟩ | ⟨bs, e, rfl⟩⟩
    · exact ⟨.invalidArgument, s.env, [], s.mem, s.res, by simp [rejectArgs]; rfl, fun _ => rfl, by simp⟩
    · exact ⟨.channelError, e, [.recv .channelError], s.mem, s.res, rfl, fun _ => rfl, by simp⟩
    · exact ⟨if frameValid bs then .ok else .malformed, e, [.recv (.ok bs)], s.mem.writeBytes s.ptr bs.toList, s.res,
        rfl, fun _ => rfl, by simp⟩
  | resync =>
    rcases execResync_cases h with ⟨-, rfl⟩ | ⟨-, -, rfl | ⟨k, -, rfl⟩⟩
    · exact ⟨.invalidArgument, s.env, [], s.mem, 0, by simp [rejectArgs]; rfl, by simp, fun _ => rfl⟩
    · exact ⟨.notFound, s.env, [], s.mem, 0, by simp; rfl, by simp, fun _ => rfl⟩
    · exact ⟨.ok, s.env, [], s.mem, s.ptr + k, by simp; rfl, by simp, fun _ => rfl⟩

end Sys2Proof.Machine
end

