-- ==== Sys2Proof/Laws/Fsm.lean ====
section
/-!
SUPPORT. The rows of the state tables: how rows compose, and what every row leaves alone (40_polling_fsm.md R130,
42_frame_codec.md R196).
-/

namespace Sys2Proof.Machine

/-- `a + b` rows are `a` rows and then `b` rows. -/
theorem fsmRun_add (a b : Nat) (s : State) : fsmRun (a + b) s = onNext (fsmRun a s) (fsmRun b) := by
  induction a generalizing s with
  | zero => simp [fsmRun]
  | succ a ih =>
    rw [Nat.succ_add, fsmRun, fsmRun]
    cases fsmStep s with
    | next t => simp [ih]
    | fault e => exact e.rec
    | refused e => rfl

/-- Rows that come after rows that answered a next state. -/
theorem fsmRun_trans {a b : Nat} {s t : State} {r : Result} (ha : fsmRun a s = .next t) (hb : fsmRun b t = r) :
    fsmRun (a + b) s = r := by
  rw [fsmRun_add, ha, onNext_next, hb]

theorem fsmRun_one {s : State} {r : Result} (h : fsmStep s = r) : fsmRun 1 s = r := by
  rw [fsmRun, h]
  cases r with
  | next t => rfl
  | fault e => exact e.rec
  | refused e => rfl

/-- What no row of a command changes (10_state.md R34), and the form of MEM. -/
structure RowKeeps (s t : State) : Prop where
  cfg : t.cfg = s.cfg
  ptr : t.ptr = s.ptr
  len : t.len = s.len
  fill : t.fill = s.fill
  limit : t.limit = s.limit
  script : t.script = s.script
  seen : t.seen = s.seen
  memForm : s.mem.wf → t.mem.wf

theorem RowKeeps.refl (s : State) : RowKeeps s s := ⟨rfl, rfl, rfl, rfl, rfl, rfl, rfl, id⟩

theorem RowKeeps.trans {s t u : State} (a : RowKeeps s t) (b : RowKeeps t u) : RowKeeps s u :=
  ⟨b.cfg.trans a.cfg, b.ptr.trans a.ptr, b.len.trans a.len, b.fill.trans a.fill, b.limit.trans a.limit,
    b.script.trans a.script, b.seen.trans a.seen, fun h => b.memForm (a.memForm h)⟩

/-- A row that polls. -/
theorem pollRow_keeps (p : Pred) (s : State) (yes : State → State) (hy : ∀ t, RowKeeps t (yes t)) :
    RowKeeps s (pollRow p s yes) := by
  unfold pollRow
  split
  · exact ⟨rfl, rfl, rfl, rfl, rfl, rfl, rfl, id⟩
  · obtain ⟨r, e, h⟩ := ask_cases p s
    rw [h]
    cases r with
    | true =>
      exact .trans (t := s.heard e [p.event true]) ⟨rfl, rfl, rfl, rfl, rfl, rfl, rfl, id⟩ (hy (s.heard e _))
    | false => exact ⟨rfl, rfl, rfl, rfl, rfl, rfl, rfl, id⟩

theorem rowSent_keeps (s : State) : RowKeeps s (rowSent s) := by
  unfold rowSent
  split <;> exact ⟨rfl, rfl, rfl, rfl, rfl, rfl, rfl, id⟩

theorem rowGet_keeps (s : State) : RowKeeps s (rowGet s) := by
  obtain ⟨b, e, h⟩ := getByte_cases s
  unfold rowGet
  rw [h]
  dsimp only
  split <;> exact ⟨rfl, rfl, rfl, rfl, rfl, rfl, rfl, fun hw => write_wf hw _ _⟩

theorem rowRecv_keeps (s : State) : RowKeeps s (rowRecv s) := by
  obtain ⟨a, e, h⟩ := chRecv_cases s
  unfold rowRecv
  rw [h]
  cases a with
  | channelError => exact ⟨rfl, rfl, rfl, rfl, rfl, rfl, rfl, id⟩
  | ok bs =>
    dsimp only
    exact ⟨rfl, rfl, rfl, rfl, rfl, rfl, rfl, fun hw => writeBytes_wf hw _ _⟩

theorem sendRecord_keeps (bs : Frame) (s : State) : RowKeeps s (sendRecord bs s) := by
  obtain ⟨o, e, h⟩ := sendRecord_cases bs s
  rw [h]
  exact ⟨rfl, rfl, rfl, rfl, rfl, rfl, rfl, id⟩

/-- No row changes the operands, and each keeps the form of MEM. -/
theorem fsmStep_keeps {s t : State} (h : fsmStep s = .next t) : RowKeeps s t := by
  unfold fsmStep at h
  split at h
  case h_1 => cases h; exact .refl s
  case h_2 => cases h; exact pollRow_keeps _ _ _ fun t => ⟨rfl, rfl, rfl, rfl, rfl, rfl, rfl, id⟩
  case h_3 =>
    unfold rowPut at h
    split at h
    · cases h
    · cases h; exact ⟨rfl, rfl, rfl, rfl, rfl, rfl, rfl, id⟩
  case h_4 => cases h; exact pollRow_keeps _ _ _ rowSent_keeps
  case h_5 => cases h; exact ⟨rfl, rfl, rfl, rfl, rfl, rfl, rfl, id⟩
  case h_6 => cases h; exact pollRow_keeps _ _ _ fun t => ⟨rfl, rfl, rfl, rfl, rfl, rfl, rfl, id⟩
  case h_7 => injection h with h; rw [← h]; exact rowGet_keeps s
  case h_8 => injection h with h; rw [← h]; exact rowRecv_keeps s
  case h_9 =>
    unfold rowValidate at h
    split at h
    · cases h
    · injection h with h
      rw [← h]
      constructor <;> simp
  case h_10 | h_11 | h_12 => cases h; exact ⟨rfl, rfl, rfl, rfl, rfl, rfl, rfl, id⟩
  case h_13 | h_14 => cases h; exact ⟨rfl, rfl, rfl, rfl, rfl, rfl, rfl, fun hw => write_wf hw _ _⟩
  case h_15 | h_16 =>
    unfold rowTrailer at h
    split at h
    · cases h
    · cases h; exact ⟨rfl, rfl, rfl, rfl, rfl, rfl, rfl, fun hw => write_wf hw _ _⟩
  case h_17 =>
    unfold rowSend at h
    split at h
    · cases h
    · injection h with h; rw [← h]; exact sendRecord_keeps _ _
  case h_18 =>
    unfold rowScan at h
    split at h
    · cases h; exact ⟨rfl, rfl, rfl, rfl, rfl, rfl, rfl, id⟩
    · split at h <;> cases h <;> exact ⟨rfl, rfl, rfl, rfl, rfl, rfl, rfl, id⟩

end Sys2Proof.Machine
end

