-- ==== Sys2Proof/Laws/PerInstr.lean ====
section
/-!
SUPPORT. What holds of every command as syntax, one lemma per constructor.
-/

namespace Sys2Proof.Laws

/-- A command is one byte, it is not the zeroed word, and the decoder reads it back (30_encoding.md R90, R93, R94). -/
def OneByte.Statement (i : Instr) : Prop :=
  i.wellFormed = true ∧ (encodeBytes i).length = 1 ∧ encode i ≠ 0 ∧ decode (encode i) = .ok i

theorem OneByte.write : OneByte.Statement .write := by unfold OneByte.Statement; decide

theorem OneByte.wtr : OneByte.Statement .wtr := by unfold OneByte.Statement; decide

theorem OneByte.encode : OneByte.Statement .encode := by unfold OneByte.Statement; decide

theorem OneByte.decode : OneByte.Statement .decode := by unfold OneByte.Statement; decide

theorem OneByte.resync : OneByte.Statement .resync := by unfold OneByte.Statement; decide

end Sys2Proof.Laws
end

