-- ==== Sys2Proof/Laws/Trace.lean ====
section
/-!
SUPPORT. What a trace says was put, received and polled, event by event.
-/

namespace Sys2Proof.Machine

variable (a b : List Event) (x : Byte) (p : Pred) (r : Bool) (n : Nat)

@[simp] theorem putBytes_append : putBytes (a ++ b) = putBytes a ++ putBytes b := by simp [putBytes]

@[simp] theorem gotBytes_append : gotBytes (a ++ b) = gotBytes a ++ gotBytes b := by simp [gotBytes]

@[simp] theorem transfers_append : transfers (a ++ b) = transfers a ++ transfers b := by simp [transfers]

@[simp] theorem pollCount_append : pollCount (a ++ b) = pollCount a + pollCount b := by simp [pollCount]

@[simp] theorem putBytes_nil : putBytes [] = [] := rfl

@[simp] theorem gotBytes_nil : gotBytes [] = [] := rfl

@[simp] theorem transfers_nil : transfers [] = [] := rfl

@[simp] theorem pollCount_nil : pollCount [] = 0 := rfl

@[simp] theorem putBytes_put : putBytes (.put x :: a) = x :: putBytes a := rfl

@[simp] theorem gotBytes_put : gotBytes (.put x :: a) = gotBytes a := rfl

@[simp] theorem transfers_put : transfers (.put x :: a) = .put x :: transfers a := rfl

@[simp] theorem pollCount_put : pollCount (.put x :: a) = pollCount a := rfl

@[simp] theorem putBytes_get : putBytes (.get x :: a) = putBytes a := rfl

@[simp] theorem gotBytes_get : gotBytes (.get x :: a) = x :: gotBytes a := rfl

@[simp] theorem transfers_get : transfers (.get x :: a) = .get x :: transfers a := rfl

@[simp] theorem pollCount_get : pollCount (.get x :: a) = pollCount a := rfl

@[simp] theorem putBytes_poll : putBytes (p.event r :: a) = putBytes a := by cases p <;> rfl

@[simp] theorem gotBytes_poll : gotBytes (p.event r :: a) = gotBytes a := by cases p <;> rfl

@[simp] theorem transfers_poll : transfers (p.event r :: a) = transfers a := by cases p <;> rfl

@[simp] theorem pollCount_poll : pollCount (p.event r :: a) = pollCount a + 1 := by cases p <;> rfl

/-- The polls of a wait that is not answered. -/
@[simp] theorem putBytes_polls : putBytes (List.replicate n (p.event r)) = [] := by
  induction n with
  | zero => rfl
  | succ n ih => rw [List.replicate_succ, putBytes_poll, ih]

@[simp] theorem gotBytes_polls : gotBytes (List.replicate n (p.event r)) = [] := by
  induction n with
  | zero => rfl
  | succ n ih => rw [List.replicate_succ, gotBytes_poll, ih]

@[simp] theorem transfers_polls : transfers (List.replicate n (p.event r)) = [] := by
  induction n with
  | zero => rfl
  | succ n ih => rw [List.replicate_succ, transfers_poll, ih]

@[simp] theorem pollCount_polls : pollCount (List.replicate n (p.event r)) = n := by
  induction n with
  | zero => rfl
  | succ n ih => rw [List.replicate_succ, pollCount_poll, ih]

end Sys2Proof.Machine
end

