-- ==== Sys2Proof/Tests/Slice0.lean ====
section
/-!
SUPPORT. The builder's own tests: ill-formed parameters, words of the opcode map, steps on small states with the results
of 95_test_vectors.md, and for every statement with hypotheses a state that meets them.
-/

open Sys2Proof Sys2Proof.Machine

namespace Sys2Proof.Tests

/-! ## Helpers -/

/-- The environment whose lists are all empty. -/
def silent : Env := State.reset.env

/-- An idle block with these operands. -/
def block (ptr len limit : Nat) (fill : Byte) (mem : Mem) (env : Env) : State :=
  { State.reset with ptr := ptr, len := len, limit := limit, fill := fill, mem := mem, env := env }

/-- The bytes `bs` from `a` upward. -/
def bytesAt (a : Nat) (bs : List Byte) : Mem := Mem.writeBytes [] a bs

/-- A frame with header bytes `h0 h1`, 14 slots `lo hi`, trailer bytes `c0 c1`. -/
def uniform (h0 h1 lo hi c0 c1 : Byte) : Frame :=
  Vector.ofFn fun j : Fin 32 =>
    if j.val = 0 then h0 else if j.val = 1 then h1 else if j.val = 30 then c0 else if j.val = 31 then c1
    else if j.val % 2 = 0 then lo else hi

/-- Outcome and trace after a step. -/
def told (r : Result) : Option (OutcomeCode × List Event) :=
  match r with
  | .next t => some (t.outcome, t.trace)
  | .fault _ => none
  | .refused _ => none

/-- Outcome and RES after a step. -/
def found (r : Result) : Option (OutcomeCode × Nat) :=
  match r with
  | .next t => some (t.outcome, t.res)
  | .fault _ => none
  | .refused _ => none

/-- Outcome and `n` bytes of MEM at `a` after a step. -/
def left (a n : Nat) (r : Result) : Option (OutcomeCode × List (Option Byte)) :=
  match r with
  | .next t => some (t.outcome, t.mem.readBytes a n)
  | .fault _ => none
  | .refused _ => none

theorem bufferAccepted_block {ptr len limit : Nat} {fill : Byte} {mem : Mem} {env : Env} (hp : ptr ≠ 0)
    (hl : len ≠ 0) (h : ptr + len ≤ 65536) : BufferAccepted (block ptr len limit fill mem env) :=
  ⟨hp, hl, h, fun j hj => ⟨{ base := 0, size := 65536 }, List.mem_singleton.2 rfl, Nat.zero_le _, by
    change j < len at hj
    change ptr + j < 0 + 65536
    omega⟩⟩

theorem frameAccepted_block {ptr len limit : Nat} {fill : Byte} {mem : Mem} {env : Env} (hp : ptr ≠ 0)
    (h : ptr + 32 ≤ 65536) : FrameAccepted (block ptr len limit fill mem env) :=
  ⟨hp, h, fun j hj => ⟨{ base := 0, size := 65536 }, List.mem_singleton.2 rfl, Nat.zero_le _, by
    change ptr + j < 0 + 65536
    omega⟩⟩

/-! ## Well-formedness: a term that fails each check is refused -/

theorem test_wellFormed_reset_parameters : Config.resetParams.wellFormed = true := by decide

theorem test_wellFormed_refuses_addrW_5 : ({ Config.resetParams with addrW := 5 } : Params).wellFormed = false := by
  decide

theorem test_wellFormed_refuses_cntW_0 : ({ Config.resetParams with cntW := 0 } : Params).wellFormed = false := by
  decide

theorem test_wellFormed_refuses_limitReset_256 :
    ({ Config.resetParams with limitReset := 256 } : Params).wellFormed = false := by decide

/-! ## Decoding: the words of 30_encoding.md R93, written out -/

theorem test_decode_write : decode 0b00000001#8 = .ok .write := by decide

theorem test_decode_wtr : decode 0b00000010#8 = .ok .wtr := by decide

theorem test_decode_encode : decode 0b00000011#8 = .ok .encode := by decide

theorem test_decode_decode : decode 0b00000100#8 = .ok .decode := by decide

theorem test_decode_resync : decode 0b00000101#8 = .ok .resync := by decide

theorem test_decode_refuses_zero : decode 0b00000000#8 = .error (.reservedOpcode 0) := by decide

theorem test_decode_refuses_six : decode 0b00000110#8 = .error (.reservedOpcode 6) := by decide

theorem test_decode_refuses_high_bit : decode 0b10000001#8 = .error (.reservedOpcode 0x81) := by decide

/-! ## Steps with the results of 95_test_vectors.md -/

/-- Vector W1: success on the poll numbered LIMIT. -/
theorem test_write_W1 :
    told (exec .write (block 0x100 2 3 0 (bytesAt 0x100 [0xA1, 0xB2, 0xC3])
      { silent with txReady := [false, true, true], txComplete := [true, false, false, true] })) =
    some (.ok, [.txrdy false, .txrdy true, .put 0xA1, .txc true, .txrdy true, .put 0xB2, .txc false, .txc false,
      .txc true]) := by decide

/-- Vector W8: TIMEOUT in the `TxComplete` wait of byte 1. -/
theorem test_write_W8 :
    told (exec .write (block 0x100 3 2 0 (bytesAt 0x100 [0xA1, 0xB2, 0xC3])
      { silent with txReady := [true, true], txComplete := [true, false, false] })) =
    some (.timeout, [.txrdy true, .put 0xA1, .txc true, .txrdy true, .put 0xB2, .txc false, .txc false]) := by
  decide

/-- Vector T1: partial output, two fill bytes put. -/
theorem test_wtr_T1 :
    told (exec .wtr (block 0x200 2 2 0xFF (bytesAt 0x200 [0xEE, 0xEE, 0xEE])
      { silent with rxReady := [true, false, false], getByte := [0x5A] })) =
    some (.timeout, [.put 0xFF, .rxrdy true, .get 0x5A, .put 0xFF, .rxrdy false, .rxrdy false]) := by decide

/-- Vector T7: the byte outside LEN is untouched. -/
theorem test_wtr_T7 :
    left 0x200 3 (exec .wtr (block 0x200 2 3 0xA5 (bytesAt 0x200 [0xEE, 0xEE, 0xEE])
      { silent with rxReady := [false, false, true, false, true], getByte := [1, 2] })) =
    some (.ok, [some 0x01, some 0x02, some 0xEE]) := by decide

/-- Vector E4: the header and the trailer are written although the send fails. -/
theorem test_encode_E4 :
    left 0x300 32 (exec .encode (block 0x300 0 0 0
      (bytesAt 0x300 (uniform 0 0 0xDC 0x05 0xAA 0xBB).toList) { silent with send := [.channelError] })) =
    some (.channelError, (uniform 0x20 0x40 0xDC 0x05 0xD7 0x6D).toList.map some) := by decide

/-- Vector E3: the sum wraps 14 times; the frame sent is FMAX. -/
theorem test_encode_E3 :
    told (exec .encode (block 0x300 0 0 0
      (bytesAt 0x300 (uniform 0 0 0xFF 0xFF 0xAA 0xBB).toList) { silent with send := [.ok] })) =
    some (.ok, [.send (uniform 0x20 0x40 0xFF 0xFF 0xED 0xBF) .ok]) := by decide

/-- Vector D5: header `0x1234` is accepted. -/
theorem test_decode_D5 :
    left 0x400 32 (exec .decode (block 0x400 0 0 0 (bytesAt 0x400 (List.replicate 32 0xEE))
      { silent with recv := [.ok (uniform 0x34 0x12 0xE8 0x03 0x1B 0xB7)] })) =
    some (.ok, (uniform 0x34 0x12 0xE8 0x03 0x1B 0xB7).toList.map some) := by decide

/-- Vector D4: a changed trailer byte is rejected, and the bytes received stay. -/
theorem test_decode_D4 :
    left 0x400 32 (exec .decode (block 0x400 0 0 0 (bytesAt 0x400 (List.replicate 32 0xEE))
      { silent with recv := [.ok (uniform 0x20 0x40 0xE8 0x03 0x2E 0x89)] })) =
    some (.malformed, (uniform 0x20 0x40 0xE8 0x03 0x2E 0x89).toList.map some) := by decide

/-- Vector Y1: the worked example of 42_frame_codec.md R200. -/
theorem test_resync_Y1 :
    found (exec .resync (block 0x500 6 0 0 (bytesAt 0x500 [0x11, 0x40, 0x20, 0x20, 0x40, 0xE8]) silent)) =
    some (.ok, 0x503) := by decide

/-- Vector Y14: the `40` lies outside the window. -/
theorem test_resync_Y14 :
    found (exec .resync (block 0x500 3 0 0 (bytesAt 0x500 [0x00, 0x00, 0x20, 0x40]) silent)) =
    some (.notFound, 0) := by decide

/-- Vectors H6 and H2: `HostWrite(0, 0x101)` is a WRITE, and right after reset it ends INVALID_ARGUMENT. -/
theorem test_host_H6 : told (hostWrite 0 0x101 State.reset) = some (.invalidArgument, []) := by decide

/-- Vector H7. -/
theorem test_host_H7 : (match hostWrite 4 0x1FF State.reset with
    | .next t => hostRead 4 t
    | .fault _ => 0
    | .refused _ => 0) = 0xFF := by decide

/-- The step fetches what `withFetchWord` places. -/
theorem test_fetch : told (step (State.reset.withFetchWord 8 0x06)) = some (.illegalCommand, []) := by decide

/-! ## Witnesses: the hypotheses of each statement can be met -/

/-- States the witnesses share; the environment of each holds just the answers it needs. -/
def wState : State :=
  block 0x100 2 3 0 (bytesAt 0x100 [0xA1, 0xB2]) { silent with txReady := [true, true], txComplete := [true, true] }

def neverTx : State := block 0x100 2 3 0 (bytesAt 0x100 [0xA1, 0xB2]) { silent with txReady := [false, false, false] }

def rState : State := block 0xFFFE 2 1 0x55 [] { silent with rxReady := [true, true], getByte := [7, 8] }

def neverRx : State := block 0xFFFE 2 1 0x55 [] { silent with rxReady := [false] }

def payload : Vector Half 14 := Vector.replicate 14 1000

def eState : State :=
  block 0xFFE0 0 0 0 (bytesAt 0xFFE2 ((uniform 0 0 0xE8 0x03 0 0).toList.drop 2 |>.take 28)) { silent with send := [.ok] }

def dState (a : RecvAnswer) : State := block 1 0 0 0 [] { silent with recv := [a] }

def sState : State := block 0x500 4 0 0 (bytesAt 0x500 [0x20, 0x20, 0x40, 0x00]) silent

def noHeader : State := block 0x500 2 0 0 (bytesAt 0x500 [0x40, 0x20]) silent

theorem wState_accepted : BufferAccepted wState := bufferAccepted_block (by decide) (by decide) (by decide)

theorem neverTx_accepted : BufferAccepted neverTx := bufferAccepted_block (by decide) (by decide) (by decide)

theorem rState_accepted : BufferAccepted rState := bufferAccepted_block (by decide) (by decide) (by decide)

theorem neverRx_accepted : BufferAccepted neverRx := bufferAccepted_block (by decide) (by decide) (by decide)

theorem eState_accepted : FrameAccepted eState := frameAccepted_block (by decide) (by decide)

theorem dState_accepted (a : RecvAnswer) : FrameAccepted (dState a) := frameAccepted_block (by decide) (by decide)

theorem sState_accepted : BufferAccepted sState := bufferAccepted_block (by decide) (by decide) (by decide)

theorem noHeader_accepted : BufferAccepted noHeader := bufferAccepted_block (by decide) (by decide) (by decide)

theorem eState_payload : HoldsPayload eState payload := by unfold HoldsPayload; decide

theorem witness_DecodeInvertsEncode :
    decode 0x05#8 = .ok .resync ∧ (∀ i, (0x00#8 : Byte) ≠ encode i) ∧ (∀ i, (0x06#8 : Byte) ≠ encode i) ∧
      ∀ i, (0xFF#8 : Byte) ≠ encode i := by
  refine ⟨by decide, ?_, ?_, ?_⟩ <;> intro i <;> cases i <;> decide

theorem witness_CmdWriteRunsTheOpcodeMap :
    257 % 256 = 1 ∧ 2 % 256 = 2 ∧ 3 % 256 = 3 ∧ 4 % 256 = 4 ∧ 5 % 256 = 5 ∧ 256 % 256 = 0 ∧ 6 ≤ 6 % 256 ∧
      6 ≤ 511 % 256 := by decide

theorem witness_ReservedOpcodeOnlyReportsIllegalCommand :
    ({ wState with script := [.write 0 6, .read 1] } : State).script = .write 0 6 :: [.read 1] ∧
      (6 % 256 = 0 ∨ 6 ≤ 6 % 256) ∧ (256 % 256 = 0 ∨ 6 ≤ 256 % 256) := by decide

theorem witness_StepRunsTheDecodedCommand :
    ({ wState with script := [.write 0 0x101] } : State).script = .write 0 0x101 :: [] ∧
      decode (opcodeOf 0x101) = .ok .write ∧ Instr.write.wellFormed = true ∧ decodeTableWord 8 5 = some .resync := by
  decide

theorem witness_OddHostAccessesAreHarmless :
    6 < 7 ∧ (2 = 2 ∨ 2 = 3 ∨ 2 = 4 ∨ 2 = 5) ∧ (5 = 2 ∨ 5 = 3 ∨ 5 = 4 ∨ 5 = 5) := by decide

theorem witness_StatusReadsDistinctOutcomeCodes :
    OutcomeCode.code .none = OutcomeCode.code .none ∧ OutcomeCode.code .illegalCommand = OutcomeCode.code .illegalCommand := by
  decide

theorem witness_HostReadReturnsTheRegister :
    ({ wState with script := [.read 7] } : State).script = .read 7 :: [] := by decide

theorem witness_PokeThenPeekReturnsTheBytes :
    allMemory State.reset.cfg 0xFFFF ([0x12] : List Byte).length = true ∧
      allMemory State.reset.cfg 0x10000 0 = true ∧ allMemory State.reset.cfg 0 ([1, 2] : List Byte).length = true := by
  decide

theorem witness_ResetSetsEveryRegister :
    ({ wState with script := [.reset] } : State).script = .reset :: [] := by decide

theorem witness_ResetAbandonsARunningCommand :
    ({ dState .channelError with script := [.cmdThenReset 4 1] } : State).script = .cmdThenReset 4 1 :: [] ∧
      decode (opcodeOf 4) = .ok .decode ∧
      ∃ u, onNext (fsmStart .decode (dState .channelError)) (fsmRun 1) = .next u :=
  ⟨by decide, by decide, _, rfl⟩

theorem witness_PollFollowsItsLoop :
    (({ wState with cnt := 3 } : State).cnt = wState.limit) ∧ wState.cnt < wState.limit ∧
      (∃ t, ask .txReady wState = (true, t)) ∧ neverTx.cnt < neverTx.limit ∧ ∃ t, ask .txReady neverTx = (false, t) :=
  ⟨by decide, by decide, ⟨_, rfl⟩, by decide, ⟨_, rfl⟩⟩

/-- The first poll, and the poll numbered LIMIT. -/
theorem witness_PollIsReadyAtTheFirstTrueAnswer :
    0 < wState.limit ∧ wState.env.answers .txReady = List.replicate 0 false ++ true :: [true] ∧
      ∃ s : State, 2 < s.limit ∧ s.env.answers .rxReady = List.replicate 2 false ++ true :: [false] :=
  ⟨by decide, by decide, block 1 1 3 0 [] { silent with rxReady := [false, false, true, false] }, by decide, by decide⟩

theorem witness_PollTimesOutAfterExactlyLimitPolls :
    neverTx.env.answers .txReady = List.replicate neverTx.limit false ++ [] ∧
      State.reset.env.answers .rxReady = List.replicate State.reset.limit false ++ [] := by decide

theorem witness_ZeroCeilingTimesOutAtOnce : sState.limit = 0 ∧ BufferAccepted sState := ⟨by decide, sState_accepted⟩

theorem witness_InvalidArgumentExactlyOnNullOrZeroLength :
    State.reset.ptr = 0 ∧ (Instr.write ≠ .encode ∧ Instr.write ≠ .decode ∧ (block 1 0 0 0 [] silent).len = 0) ∧
      ∃ t, exec .write State.reset = .next t ∧ t.outcome = .invalidArgument :=
  ⟨by decide, by decide, _, rfl, rfl⟩

/-- The last legal extent, and the first that passes the top. -/
theorem witness_IllegalExtentIsRefused :
    Backed (block 0xFFFE 2 0 0 [] silent) 2 ∧ ¬ Backed (block 0xFFFE 3 0 0 [] silent) 3 ∧
      Backed (block 0xFFE0 0 0 0 [] silent) 32 ∧ ¬ Backed (block 0xFFE1 0 0 0 [] silent) 32 :=
  ⟨(bufferAccepted_block (limit := 0) (by decide) (by decide) (by decide)).backed,
    fun h => absurd h.1 (by decide), (frameAccepted_block (len := 0) (limit := 0) (by decide) (by decide)).backed,
    fun h => absurd h.1 (by decide)⟩

/-- A WRITE that stops at its last byte, with the last wait ready on the poll numbered LIMIT. -/
def gapState : State :=
  block 0x100 3 2 0 (bytesAt 0x100 [0xA1, 0xB2])
    { silent with txReady := [true, false, true, false, true], txComplete := [false, true, true] }

/-- A RESYNC that comes to an unwritten byte at offset 2, the first of the last pair. -/
def gapWindow : State := block 0x500 4 0 0 (bytesAt 0x500 [0x20, 0x20]) silent

/-- A RESYNC that comes to an unwritten byte at offset 3, the last of the window. -/
def gapAtEnd : State := block 0x500 4 0 0 (bytesAt 0x500 [0x20, 0x20, 0x20]) silent

theorem gapState_accepted : BufferAccepted gapState := bufferAccepted_block (by decide) (by decide) (by decide)

theorem witness_ReadingAnUnwrittenByteIsRefused_encode :
    FrameAccepted (dState .channelError) ∧ ∃ j, 2 ≤ j ∧ j < 30 ∧ (dState .channelError).mem.read (1 + j) = none :=
  ⟨dState_accepted _, 29, by decide⟩

theorem witness_ReadingAnUnwrittenByteIsRefused_write :
    BufferAccepted gapState ∧ 2 < gapState.len ∧ [0, 1, 1].length = 2 + 1 ∧ [1, 0].length = 2 ∧
      (∀ k ∈ [0, 1, 1], k < gapState.limit) ∧ (∀ k ∈ [1, 0], k < gapState.limit) ∧
      gapState.env.txReady = readyAfter [0, 1, 1] ++ [] ∧ gapState.env.txComplete = readyAfter [1, 0] ++ [] ∧
      (∀ j < 2, gapState.mem.read (gapState.ptr + j) ≠ none) ∧ gapState.mem.read (gapState.ptr + 2) = none :=
  ⟨gapState_accepted, by decide⟩

/-- The first byte of a WRITE, with `LIMIT = 1`. -/
theorem witness_ReadingAnUnwrittenByteIsRefused_write_first :
    ∃ s : State, BufferAccepted s ∧ 0 < s.len ∧ (∀ k ∈ [0], k < s.limit) ∧ s.env.txReady = readyAfter [0] ++ [] ∧
      s.env.txComplete = readyAfter [] ++ [] ∧ s.mem.read (s.ptr + 0) = none :=
  ⟨block 1 1 1 0 [] { silent with txReady := [true] }, bufferAccepted_block (by decide) (by decide) (by decide),
    by decide⟩

theorem witness_ReadingAnUnwrittenByteIsRefused_resync :
    BufferAccepted gapWindow ∧ 2 + 1 < gapWindow.len ∧ (∀ j < 2, gapWindow.mem.read (gapWindow.ptr + j) ≠ none) ∧
      (∀ j < 2, ¬ (gapWindow.mem.read (gapWindow.ptr + j) = some 0x20 ∧
        gapWindow.mem.read (gapWindow.ptr + j + 1) = some 0x40)) ∧
      gapWindow.mem.read (gapWindow.ptr + 2) = none :=
  ⟨bufferAccepted_block (by decide) (by decide) (by decide), by decide⟩

theorem witness_ReadingAnUnwrittenByteIsRefused_resync_second_byte :
    BufferAccepted gapAtEnd ∧ 2 + 1 < gapAtEnd.len ∧ (∀ j < 2, gapAtEnd.mem.read (gapAtEnd.ptr + j) ≠ none) ∧
      (∀ j < 2, ¬ (gapAtEnd.mem.read (gapAtEnd.ptr + j) = some 0x20 ∧
        gapAtEnd.mem.read (gapAtEnd.ptr + j + 1) = some 0x40)) ∧
      gapAtEnd.mem.read (gapAtEnd.ptr + 2) = some 0x20 ∧ gapAtEnd.mem.read (gapAtEnd.ptr + 2 + 1) = none :=
  ⟨bufferAccepted_block (by decide) (by decide) (by decide), by decide⟩

/-- Vector W11: the wait of byte 1 times out, and `MEM[0x0101]` is not read. -/
def stopsBefore : State :=
  block 0x100 2 2 0 (bytesAt 0x100 [0xA1]) { silent with txReady := [true, false, false], txComplete := [true] }

/-- Both clauses: the byte at the gap is not put, and it is. -/
theorem witness_WriteReadsOnlyTheBytesItPuts :
    (∃ t es, exec .write { stopsBefore with mem := stopsBefore.mem.write 0x101 9 } = .next t ∧
      t.trace = stopsBefore.trace ++ es ∧ (putBytes es).length = 1 ∧
      ∀ j < (putBytes es).length, stopsBefore.mem.read (stopsBefore.ptr + j) ≠ none) ∧
    ∃ t es, exec .write { gapState with
        mem := gapState.mem.write 0x102 9, env := { gapState.env with txComplete := [true, true, true] } } = .next t ∧
      t.trace = gapState.trace ++ es ∧ ∃ j < (putBytes es).length, gapState.mem.read (gapState.ptr + j) = none :=
  ⟨⟨_, _, rfl, rfl, by decide, by decide⟩, ⟨_, _, rfl, rfl, 2, by decide, by decide⟩⟩

theorem witness_WriteReadsOnlyTheBytesItPuts_memory :
    (∀ j < stopsBefore.len, ∀ b, stopsBefore.mem.read (stopsBefore.ptr + j) = some b →
      Mem.read (stopsBefore.mem.write 0x101 9) (stopsBefore.ptr + j) = some b) ∧
    ∀ j < gapState.len, ∀ b, gapState.mem.read (gapState.ptr + j) = some b →
      Mem.read (gapState.mem.write 0x102 9) (gapState.ptr + j) = some b := by decide

theorem wState_holds : HoldsBytes wState.mem wState.ptr [0xA1, 0xB2] := by unfold HoldsBytes; decide

theorem witness_WriteSendsTheWholeBuffer :
    BufferAccepted wState ∧ 0 < wState.limit ∧ ([0xA1, 0xB2] : List Byte).length = wState.len ∧
      HoldsBytes wState.mem wState.ptr [0xA1, 0xB2] ∧
      wState.env.txReady = List.replicate wState.len true ++ [] ∧
      wState.env.txComplete = List.replicate wState.len true ++ [] :=
  ⟨wState_accepted, by decide, by decide, wState_holds, by decide, by decide⟩

theorem witness_WriteTimesOutWhenNeverReady :
    BufferAccepted neverTx ∧ neverTx.env.txReady = List.replicate neverTx.limit false ++ [] :=
  ⟨neverTx_accepted, by decide⟩

theorem witness_WriteEndsHavingPutAnInitialPart :
    BufferAccepted wState ∧ ([0xA1, 0xB2] : List Byte).length = wState.len ∧
      HoldsBytes wState.mem wState.ptr [0xA1, 0xB2] :=
  ⟨wState_accepted, by decide, wState_holds⟩

theorem witness_WtrReceivesTheWholeBuffer :
    BufferAccepted rState ∧ 0 < rState.limit ∧ ([7, 8] : List Byte).length = rState.len ∧
      rState.env.rxReady = List.replicate rState.len true ++ [] ∧ rState.env.getByte = [7, 8] ++ [] :=
  ⟨rState_accepted, by decide, by decide, by decide, by decide⟩

theorem witness_WtrTimesOutWhenNeverReady :
    BufferAccepted neverRx ∧ neverRx.env.rxReady = List.replicate neverRx.limit false ++ [] :=
  ⟨neverRx_accepted, by decide⟩

theorem witness_WtrEndsHavingStoredWhatItReceived : BufferAccepted neverRx := neverRx_accepted

theorem witness_BytesAreTransferredInOrder :
    (∃ t, exec .write wState = .next t ∧ t.trace = wState.trace ++ t.trace) ∧
      ∃ t, exec .wtr neverRx = .next t ∧ t.trace = neverRx.trace ++ t.trace :=
  ⟨⟨_, rfl, rfl⟩, ⟨_, rfl, rfl⟩⟩

theorem witness_EncodeWritesTheFrameAndSendsIt :
    FrameAccepted eState ∧ HoldsPayload eState payload ∧ eState.env.nextSend = (.ok, silent) :=
  ⟨eState_accepted, eState_payload, by decide⟩

theorem witness_EncodedRecordIsValidWhateverTheOutcome :
    eState.ptr ≠ 0 ∧ (∃ t, exec .encode eState = .next t) ∧
      ∃ t, exec .encode { eState with env := { silent with send := [.channelError] } } = .next t :=
  ⟨by decide, ⟨_, rfl⟩, ⟨_, rfl⟩⟩

theorem witness_DecodeStoresAndValidatesTheFrame :
    FrameAccepted (dState .channelError) ∧ (dState .channelError).env.nextRecv = (.channelError, silent) ∧
      FrameAccepted (dState (.ok (uniform 0 0 0 0 0 0))) ∧
      (dState (.ok (uniform 0 0 0 0 0 0))).env.nextRecv = (.ok (uniform 0 0 0 0 0 0), silent) :=
  ⟨dState_accepted _, rfl, dState_accepted _, rfl⟩

theorem witness_LoopbackReproducesThePayload :
    ∃ (t v : State) (bs : Frame), FrameAccepted eState ∧ HoldsPayload eState payload ∧ eState.env.send = .ok :: [] ∧
      exec .encode eState = .next t ∧ t.trace = eState.trace ++ [.send bs .ok] ∧
      v = { t with ptr := v.ptr, env := { t.env with recv := .ok bs :: [] } } ∧ FrameAccepted v ∧ v.ptr = 1 := by
  obtain ⟨t, ht, he, hc⟩ : ∃ t, exec .encode eState = .next t ∧
      t.trace = eState.trace ++ [.send (uniform 0x20 0x40 0xE8 0x03 0x2F 0x89) .ok] ∧ t.cfg = State.reset.cfg :=
    ⟨_, rfl, by decide, rfl⟩
  refine ⟨t, { t with ptr := 1, env := { t.env with recv := [.ok (uniform 0x20 0x40 0xE8 0x03 0x2F 0x89)] } }, _,
    eState_accepted, eState_payload, rfl, ht, he, rfl, ⟨Nat.one_ne_zero, ?_⟩, rfl⟩
  have hb : Backed (dState .channelError) 32 := (dState_accepted .channelError).backed
  unfold Backed at hb ⊢
  rw [show (dState .channelError).cfg = State.reset.cfg from rfl] at hb
  simp only [hc]
  exact hb

theorem witness_FindHeaderIsTheLeastPair : ([0x20] : List Byte).length = 1 := by decide

theorem witness_ResyncFindsTheEarliestHeader :
    BufferAccepted sState ∧ ([0x20, 0x20, 0x40, 0x00] : List Byte).length = sState.len ∧
      HoldsBytes sState.mem sState.ptr [0x20, 0x20, 0x40, 0x00] ∧ findHeader [0x20, 0x20, 0x40, 0x00] = some 1 ∧
      BufferAccepted noHeader ∧ HoldsBytes noHeader.mem noHeader.ptr [0x40, 0x20] ∧
      ([0x40, 0x20] : List Byte).length = noHeader.len ∧ findHeader [0x40, 0x20] = none :=
  ⟨sState_accepted, by decide, by unfold HoldsBytes; decide, by decide, noHeader_accepted,
    by unfold HoldsBytes; decide, by decide, by decide⟩

theorem witness_ResyncLaws :
    (∃ t, exec .resync sState = .next t ∧ t.outcome = .ok) ∧ sState.ptr ≠ 0 ∧ 1 + 1 < sState.len ∧
      sState.mem.read (sState.ptr + 1) = some 0x20 ∧ sState.mem.read (sState.ptr + 1 + 1) = some 0x40 ∧
      (∀ j < 1, ¬ (sState.mem.read (sState.ptr + j) = some 0x20 ∧ sState.mem.read (sState.ptr + j + 1) = some 0x40)) ∧
      (∃ t, exec .resync noHeader = .next t ∧ t.outcome = .notFound) ∧
      (∀ j, j + 1 < noHeader.len →
        ¬ (noHeader.mem.read (noHeader.ptr + j) = some 0x20 ∧ noHeader.mem.read (noHeader.ptr + j + 1) = some 0x40)) ∧
      (∃ t, exec .resync State.reset = .next t ∧ t.outcome = .invalidArgument) ∧
      ∀ x, sState.ptr ≤ x → x < sState.ptr + sState.len → Mem.read (sState.mem.write 0x504 9) x = sState.mem.read x := by
  refine ⟨⟨_, rfl, rfl⟩, by decide, by decide, by decide, by decide, by decide, ⟨_, rfl, rfl⟩, fun j hj => ?_,
    ⟨_, rfl, rfl⟩, fun x h1 h2 => ?_⟩
  · have : j < 1 := by have : noHeader.len = 2 := rfl; omega
    obtain rfl : j = 0 := by omega
    decide
  · have hp : sState.ptr = 0x500 := rfl
    have hl : sState.len = 4 := rfl
    obtain rfl | rfl | rfl | rfl : x = 0x500 ∨ x = 0x501 ∨ x = 0x502 ∨ x = 0x503 := by omega
    all_goals decide

theorem witness_CommandsPreserveTheirOperands :
    (∃ t, hostWrite 0 1 wState = .next t) ∧ (∃ t, hostWrite 0 0 wState = .next t) ∧ (5 : Nat) % 256 = 5 ∧
      ∃ t, hostWrite 0 5 sState = .next t :=
  ⟨⟨_, rfl⟩, ⟨_, rfl⟩, by decide, ⟨_, rfl⟩⟩

theorem witness_OnlyResyncWritesResAndAllEndIdle : (∃ t, hostWrite 0 1 wState = .next t) ∧ 1 % 256 ≠ 5 :=
  ⟨⟨_, rfl⟩, by decide⟩

theorem witness_CommandsWriteOnlyTheirBytes :
    (∃ t, exec .write wState = .next t) ∧ (∃ t, exec .resync sState = .next t) ∧
      (∃ t, exec .wtr rState = .next t) ∧ 0xFFFD < rState.ptr ∧ rState.ptr + rState.len ≤ 0x10000 ∧
      (∃ t, exec .encode eState = .next t) ∧
      (∃ t, exec .decode (dState .channelError) = .next t ∧ t.outcome = .channelError) ∧
      ∃ t, exec .decode (dState (.ok (uniform 0 0 0 0 0 0))) = .next t ∧ t.outcome = .malformed :=
  ⟨⟨_, rfl⟩, ⟨_, rfl⟩, ⟨_, rfl⟩, by decide, by decide, ⟨_, rfl⟩, ⟨_, rfl, rfl⟩, ⟨_, rfl, rfl⟩⟩

/-- A byte just after the extent differs. -/
theorem witness_CommandsReadOnlyTheirExtent :
    (∀ x, noHeader.ptr ≤ x → x < noHeader.ptr + extentLen .resync noHeader →
      Mem.read (noHeader.mem.write 0x502 9) x = noHeader.mem.read x) ∧
      (∃ t, exec .resync noHeader = .next t) ∧ exec .write (block 0xFFFF 2 0 0 [] silent) = .refused .illegalExtent := by
  refine ⟨fun x h1 h2 => ?_, ⟨_, rfl⟩, rfl⟩
  have hp : noHeader.ptr = 0x500 := rfl
  have hl : extentLen .resync noHeader = 2 := rfl
  obtain rfl | rfl : x = 0x500 ∨ x = 0x501 := by omega
  all_goals decide

theorem witness_CommandsAreStateless :
    ∃ r : State, r.cfg = wState.cfg ∧ r.ptr = wState.ptr ∧ r.len = wState.len ∧ r.fill = wState.fill ∧
      r.limit = wState.limit ∧ r.mem = wState.mem ∧ r.env = wState.env ∧ r.res ≠ wState.res ∧
      ∃ t, exec .write wState = .next t :=
  ⟨{ wState with res := 5, outcome := .timeout }, rfl, rfl, rfl, rfl, rfl, rfl, rfl, by decide, _, rfl⟩

theorem witness_OutcomeMatrix :
    (∃ t, exec .write wState = .next t) ∧ (∃ t, exec .wtr rState = .next t) ∧ (∃ t, exec .encode eState = .next t) ∧
      (∃ t, exec .decode (dState .channelError) = .next t) ∧ (∃ t, exec .resync sState = .next t) ∧
      ∃ t, hostWrite 0 0xFF wState = .next t :=
  ⟨⟨_, rfl⟩, ⟨_, rfl⟩, ⟨_, rfl⟩, ⟨_, rfl⟩, ⟨_, rfl⟩, ⟨_, rfl⟩⟩

theorem witness_EachCommandUsesOnlyItsPort :
    (∃ t, exec .write neverTx = .next t) ∧ (∃ t, exec .wtr neverRx = .next t) ∧
      (∃ t, exec .encode eState = .next t ∧ t.outcome ≠ .invalidArgument) ∧
      (∃ t, exec .decode (dState .channelError) = .next t ∧ t.outcome ≠ .invalidArgument) ∧
      (∃ t, exec .resync noHeader = .next t) ∧ ∃ t, exec .encode State.reset = .next t ∧ t.outcome = .invalidArgument :=
  ⟨⟨_, rfl⟩, ⟨_, rfl⟩, ⟨_, rfl, by decide⟩, ⟨_, rfl, by decide⟩, ⟨_, rfl⟩, ⟨_, rfl, rfl⟩⟩

def f1000 : Frame := uniform 0x20 0x40 0xE8 0x03 0x2F 0x89

theorem witness_FieldsAreLittleEndian :
    (0 : Nat) < 16 ∧ (15 : Nat) < 16 ∧ (bytesAt 7 f1000.toList).readFrame 7 = some f1000 := by decide

theorem witness_SumIsTheNumericSumModulo65536 :
    ∃ bs cs : Frame, (∀ j (_ : j < 30), bs[j] = cs[j]) ∧ bs[30] ≠ cs[30] :=
  ⟨f1000, uniform 0x20 0x40 0xE8 0x03 0x2E 0x89, by decide, by decide⟩

/-- Vectors K8 and K7: `Sum16` is 0, and `0xFFFF`. -/
theorem witness_ChecksumIsTheOnesComplement :
    (∃ bs : Frame, sum16 bs = 0) ∧ ∃ bs : Frame, sum16 bs = 0xFFFF :=
  ⟨⟨uniform 0 0 0 0 9 9, by decide⟩, uniform 0xFF 0xFF 0 0 9 9, by decide⟩

/-- Vectors K13 to K16: the first byte, a middle byte and the last byte. -/
theorem witness_OneByteChangeIsCaught :
    frameValid f1000 = true ∧ (∃ cs : Frame, cs[0] ≠ f1000[0] ∧ ∀ k (_ : k < 32), k ≠ 0 → cs[k] = f1000[k]) ∧
      ∃ cs : Frame, cs[31] ≠ f1000[31] ∧ ∀ k (_ : k < 32), k ≠ 31 → cs[k] = f1000[k] :=
  ⟨by decide, ⟨uniform 0x21 0x40 0xE8 0x03 0x2F 0x89, by decide⟩, uniform 0x20 0x40 0xE8 0x03 0x2F 0x88, by decide⟩

/-- Vector K19: a payload byte and the trailer byte of the same weight; and two fields exchanged. -/
theorem witness_CompensatingChangesAreNotCaught :
    frameValid f1000 = true ∧ (1 : Fin 16) ≠ 15 ∧
      (∃ cs : Frame, (∀ l, l ≠ (1 : Fin 16) → l ≠ 15 → field cs l = field f1000 l) ∧
        ∃ d, field cs 1 = field f1000 1 + d ∧ field cs 15 = field f1000 15 - d) ∧
      (∃ cs : Frame, (∀ l, l ≠ (1 : Fin 16) → l ≠ 15 → field cs l = field f1000 l) ∧
        field cs 1 = field f1000 15 ∧ field cs 15 = field f1000 1) ∧
      fieldSum (uniform 0xFF 0xFF 0 0 0 0) % 65536 = 0xFFFF ∧ fieldSum f1000 % 65536 = fieldSum f1000 % 65536 :=
  ⟨by decide, by decide,
    ⟨((f1000.set 3 0x04).set 31 0x88), by decide, 0x100, by decide⟩,
    ⟨((((f1000.set 2 0x2F).set 3 0x89).set 30 0xE8).set 31 0x03), by decide⟩, by decide, rfl⟩

theorem witness_UnmarshalAndMarshalAreInverse : 0 < 14 ∧ 13 < 14 := by decide

theorem witness_GeneratorAndValidatorAgree :
    ∃ c : Half, c = checksum (marshal { hdr := 0x4020, slot := payload, chk := 0 }) ∧ c = 0x892F :=
  ⟨_, rfl, by decide⟩

/-- One state at each row of the polling FSM, with the answers the row needs. -/
theorem witness_PollingFsmFollowsItsTable :
    State.reset.ptr = 0 ∧ BufferAccepted wState ∧
      (∃ s : State, s.fsm = .wTxRdy ∧ s.cnt = s.limit) ∧
      (∃ s t : State, s.fsm = .wTxRdy ∧ s.cnt < s.limit ∧ ask .txReady s = (true, t)) ∧
      (∃ s t : State, s.fsm = .wTxRdy ∧ s.cnt < s.limit ∧ ask .txReady s = (false, t)) ∧
      (∃ (s : State) (b : Byte), s.fsm = .wPut ∧ s.mem.read (s.ptr + s.idx) = some b) ∧
      (∃ s t : State, s.fsm = .wTxc ∧ s.cnt < s.limit ∧ ask .txComplete s = (true, t) ∧ s.idx + 1 = s.len) ∧
      (∃ s t : State, s.fsm = .wTxc ∧ s.cnt < s.limit ∧ ask .txComplete s = (true, t) ∧ s.idx + 1 < s.len) ∧
      (∃ s t : State, s.fsm = .rRxRdy ∧ s.cnt < s.limit ∧ ask .rxReady s = (true, t)) ∧
      (∃ (s t : State) (b : Byte), s.fsm = .rGet ∧ getByte s = (b, t) ∧ s.idx + 1 = s.len) ∧
      ∃ (s t : State) (b : Byte), s.fsm = .rGet ∧ getByte s = (b, t) ∧ s.idx + 1 < s.len :=
  ⟨rfl, wState_accepted, ⟨{ wState with fsm := .wTxRdy, cnt := 3 }, rfl, rfl⟩,
    ⟨{ wState with fsm := .wTxRdy, cnt := 2 }, _, rfl, by decide, rfl⟩,
    ⟨{ neverTx with fsm := .wTxRdy }, _, rfl, by decide, rfl⟩, ⟨{ wState with fsm := .wPut }, _, rfl, rfl⟩,
    ⟨{ wState with fsm := .wTxc, idx := 1 }, _, rfl, by decide, rfl, rfl⟩,
    ⟨{ wState with fsm := .wTxc }, _, rfl, by decide, rfl, by decide⟩,
    ⟨{ rState with fsm := .rRxRdy }, _, rfl, by decide, rfl⟩,
    ⟨{ rState with fsm := .rGet, idx := 1 }, _, _, rfl, rfl, rfl⟩,
    ⟨{ rState with fsm := .rGet }, _, _, rfl, rfl, by decide⟩⟩

theorem witness_PollingFsmFollowsItsTable_other_rows :
    (State.reset.len = 0 ∧ (block 1 0 0 0 [] silent).ptr ≠ 0) ∧
      (∃ s : State, s.fsm = .wTxc ∧ s.cnt = s.limit) ∧ (∃ s : State, s.fsm = .rPut) ∧
      (∃ s t : State, s.fsm = .wTxc ∧ s.cnt < s.limit ∧ ask .txComplete s = (false, t)) ∧
      (∃ s : State, s.fsm = .rRxRdy ∧ s.cnt = s.limit) ∧
      ∃ s t : State, s.fsm = .rRxRdy ∧ s.cnt < s.limit ∧ ask .rxReady s = (false, t) :=
  ⟨by decide, ⟨{ wState with fsm := .wTxc, cnt := 3 }, rfl, rfl⟩, ⟨{ rState with fsm := .rPut }, rfl⟩,
    ⟨{ block 1 1 1 0 [] { silent with txComplete := [false] } with fsm := .wTxc }, _, rfl, by decide, rfl⟩,
    ⟨{ neverRx with fsm := .rRxRdy, cnt := 1 }, rfl, rfl⟩, ⟨{ neverRx with fsm := .rRxRdy }, _, rfl, by decide, rfl⟩⟩

theorem witness_DecodeFsmFollowsItsTable :
    State.reset.ptr = 0 ∧ FrameAccepted (dState .channelError) ∧
      (∃ s t : State, s.fsm = .awaitingHeader ∧ chRecv s = (.channelError, t)) ∧
      (∃ s t : State, s.fsm = .awaitingHeader ∧ chRecv s = (.ok f1000, t)) ∧
      (∃ s : State, s.fsm = .validatingChecksum ∧ s.mem.readFrame s.ptr = some f1000) ∧
      ({ wState with fsm := .accepted } : State).fsm = .accepted ∧
      ({ wState with fsm := .rejected } : State).fsm = .rejected ∧
      ({ wState with fsm := .channelError } : State).fsm = .channelError :=
  ⟨rfl, dState_accepted _, ⟨{ dState .channelError with fsm := .awaitingHeader }, _, rfl, rfl⟩,
    ⟨{ dState (.ok f1000) with fsm := .awaitingHeader }, _, rfl, rfl⟩,
    ⟨{ block 7 0 0 0 (bytesAt 7 f1000.toList) silent with fsm := .validatingChecksum }, rfl, by decide⟩, rfl, rfl, rfl⟩

theorem resetInv : Inv State.reset :=
  ⟨by decide, List.Pairwise.nil, by decide, by decide, by decide, by decide, by decide, rfl, rfl, rfl⟩

theorem rState_inv : Inv rState :=
  ⟨by decide, List.Pairwise.nil, by decide, by decide, by decide, by decide, by decide, rfl, rfl, rfl⟩

theorem witness_HiddenCountersNeverOverflow :
    Inv rState ∧ ∃ t, onNext (fsmStart .wtr rState) (fsmRun 3) = .next t := ⟨rState_inv, _, rfl⟩

theorem witness_ResetSatisfiesTheInvariant :
    Config.resetParams.wellFormed = true ∧
      ({ addrW := 6, cntW := 1, limitReset := 1, regions := [] } : Params).wellFormed = true := by decide

theorem witness_EveryStepKeepsTheInvariant :
    Inv State.reset ∧ (∃ t, step State.reset = .next t) ∧
      Inv { rState with script := [.write 0 2] } ∧ ∃ t, step { rState with script := [.write 0 2] } = .next t :=
  ⟨resetInv, ⟨_, rfl⟩,
    ⟨by decide, List.Pairwise.nil, by decide, by decide, by decide, by decide, by decide, rfl, rfl, rfl⟩, ⟨_, rfl⟩⟩

end Sys2Proof.Tests
end

namespace Sys2Proof.Machine

/-! ## MEM in canonical form, with bytes only where memory is (10_state.md R37) -/

/-- The part of `Inv` that speaks of MEM, for the parameters `p`. -/
structure MemOk (p : Params) (m : Mem) : Prop where
  form : m.wf
  place : ∀ c ∈ m, isMemory p c.1 = true

theorem MemOk.write {p : Params} {m : Mem} (h : MemOk p m) {a : Nat} (ha : isMemory p a = true) (b : Byte) :
    MemOk p (m.write a b) where
  form := write_wf h.form a b
  place c hc := by
    rcases mem_of_write hc with rfl | hc
    · exact ha
    · exact h.place c hc

theorem MemOk.writeBytes {p : Params} {m : Mem} (h : MemOk p m) {a : Nat} {bs : List Byte}
    (ha : ∀ j < bs.length, isMemory p (a + j) = true) : MemOk p (m.writeBytes a bs) where
  form := writeBytes_wf h.form a bs
  place c hc := by
    rcases mem_of_writeBytes hc with ⟨hlo, hhi⟩ | hc
    · simpa [Nat.add_sub_cancel' hlo] using ha (c.1 - a) (by omega)
    · exact h.place c hc

theorem MemOk.write16 {p : Params} {m : Mem} (h : MemOk p m) {a : Nat} (ha : isMemory p a = true)
    (ha' : isMemory p (a + 1) = true) (w : Half) : MemOk p (m.write16 a w) :=
  (h.write ha _).write ha' _

/-- The `n` addresses from PTR upward hold memory. -/
def PtrRun (s : State) (n : Nat) : Prop := ∀ j < n, isMemory s.cfg (s.ptr + j) = true

theorem ptrRun_of_legalExtent {i : Instr} {s : State} (h : legalExtent i s = true) : PtrRun s (extentLen i s) :=
  fun _ hj => isMemory_of_legalExtent h hj

/-- What ENCODE stores lies in its record (42_frame_codec.md R192). -/
theorem encodeRecord_memOk {p : Params} {m m' : Mem} {a : Nat} {bs : Frame} (hm : MemOk p m)
    (ha : ∀ j < 32, isMemory p (a + j) = true) (h : encodeRecord m a = some (m', bs)) : MemOk p m' := by
  obtain ⟨c, -, rfl, -⟩ := encodeRecord_eq_some h
  have header : MemOk p (m.write16 a Config.header) := hm.write16 (ha 0 (by omega)) (ha 1 (by omega)) _
  exact header.write16 (ha 30 (by omega)) (ha 31 (by omega)) c

/-- A command stores only inside its legal extent, so MEM keeps its form and place (20_memory.md R64, R66). -/
theorem exec_memOk {i : Instr} {s t : State} (hm : MemOk s.cfg s.mem) (h : exec i s = .next t) :
    MemOk s.cfg t.mem := by
  cases i with
  | write | resync =>
    obtain ⟨o, e, es, m, r, rfl, -, hmem⟩ := exec_frame h
    simpa [hmem] using hm
  | wtr =>
    rcases execWtr_cases h with ⟨-, rfl⟩ | ⟨-, hl, o, e, es, bs, -, hlen, rfl⟩
    · simpa using hm
    · exact hm.writeBytes fun j hj => ptrRun_of_legalExtent hl j (Nat.lt_of_lt_of_le hj hlen)
  | encode =>
    rcases execEncode_cases h with ⟨-, rfl⟩ | ⟨-, hl, m, bs, o, e, he, rfl⟩
    · simpa using hm
    · exact encodeRecord_memOk hm (ptrRun_of_legalExtent hl) he
  | decode =>
    rcases execDecode_cases h with ⟨-, rfl⟩ | ⟨-, hl, ⟨e, rfl⟩ | ⟨bs, e, rfl⟩⟩
    · simpa using hm
    · exact hm
    · exact hm.writeBytes fun j hj => ptrRun_of_legalExtent hl j (by simpa [extentLen, Config.frameLen] using hj)

/-- What RESYNC puts in RES is an address of its legal window, or 0; no other command writes RES (10_state.md R26). -/
theorem exec_res_lt {i : Instr} {s t : State} (hr : s.res < 2 ^ s.cfg.addrW) (h : exec i s = .next t) :
    t.res < 2 ^ s.cfg.addrW := by
  by_cases hi : i = .resync
  · subst hi
    rcases execResync_cases h with ⟨-, rfl⟩ | ⟨-, hl, rfl | ⟨k, hk, rfl⟩⟩
    · simp [rejectArgs]
    · simp
    · have htop : s.ptr + s.len - 1 < 2 ^ s.cfg.addrW := (legalExtent_iff.1 hl).1
      show s.ptr + k < 2 ^ s.cfg.addrW
      omega
  · obtain ⟨o, e, es, m, r, rfl, hres, -⟩ := exec_frame h
    simpa [hres hi] using hr

/-! ## The invariant under the actions of HOST and of the platform -/

theorem Inv.memOk {s : State} (h : Inv s) : MemOk s.cfg s.mem := ⟨h.memForm, h.memPlace⟩

/-- Reset makes the invariant of legal parameters and a good MEM (10_state.md R41). -/
theorem inv_blockReset {s : State} (hp : s.cfg.wellFormed = true) (hm : MemOk s.cfg s.mem) : Inv s.blockReset where
  params := hp
  memForm := hm.form
  memPlace := hm.place
  ptr := by simp
  len := by simp
  res := by simp
  limit := by
    simp only [Params.wellFormed, Bool.and_eq_true, decide_eq_true_eq] at hp
    exact hp.2
  idle := rfl
  cnt := rfl
  idx := rfl

/-- What a command changes, MEM and RES apart, is set to its idle value by `finish`. -/
theorem exec_keeps_inv {i : Instr} {s t : State} (hs : Inv s) (h : exec i s = .next t) : Inv t := by
  have hm := exec_memOk hs.memOk h
  have hr := exec_res_lt hs.res h
  obtain ⟨o, e, es, m, r, rfl, -, -⟩ := exec_frame h
  exact { hs with memForm := hm.form, memPlace := hm.place, res := hr, idle := rfl, cnt := rfl, idx := rfl }

/-- What a write to CMD does when it answers a next state: the command of the opcode, or the end of a reserved one
(30_encoding.md R93, R94). -/
theorem command_cases {v : Nat} {s t : State} (h : command v s = .next t) :
    (∃ i, decode (opcodeOf v) = .ok i ∧ exec i s = .next t) ∨ t = s.finish .illegalCommand := by
  unfold command at h
  split at h
  · rename_i i hi
    exact .inl ⟨i, hi, h⟩
  · cases h
    exact .inr rfl

theorem command_keeps_inv {v : Nat} {s t : State} (hs : Inv s) (h : command v s = .next t) : Inv t := by
  rcases command_cases h with ⟨i, -, h⟩ | rfl
  · exact exec_keeps_inv hs h
  · exact { hs with idle := rfl, cnt := rfl, idx := rfl }

theorem trunc_lt (n v : Nat) : trunc n v < 2 ^ n := Nat.mod_lt v (by positivity)

theorem hostWrite_keeps_inv {n v : Nat} {s t : State} (hs : Inv s) (h : hostWrite n v s = .next t) : Inv t := by
  unfold hostWrite at h
  split at h
  · exact command_keeps_inv hs h
  · cases h; exact { hs with ptr := trunc_lt _ v }
  · cases h; exact { hs with len := trunc_lt _ v }
  · cases h; exact { hs with }
  · cases h; exact { hs with limit := trunc_lt _ v }
  · cases h; exact hs

theorem allMemory_iff {p : Params} {a n : Nat} :
    allMemory p a n = true ↔ ∀ j < n, isMemory p (a + j) = true := by
  simp [allMemory]

theorem hostPoke_keeps_inv {a : Nat} {bs : List Byte} {s t : State} (hs : Inv s) (h : hostPoke a bs s = .next t) :
    Inv t := by
  unfold hostPoke at h
  split at h
  · rename_i hall
    cases h
    have hm : MemOk s.cfg (s.mem.writeBytes a bs) :=
      hs.memOk.writeBytes (allMemory_iff.1 hall)
    exact { hs with memForm := hm.form, memPlace := hm.place }
  · cases h

theorem hostPeek_keeps_inv {a n : Nat} {s t : State} (hs : Inv s) (h : hostPeek a n s = .next t) : Inv t := by
  unfold hostPeek at h
  split at h
  · cases h; exact { hs with }
  · cases h

/-! ## The invariant of the state tables (10_state.md R30 to R32) -/

/-- What a row of the state tables works on: the LEN bytes at PTR, the record at PTR, or neither. -/
inductive RowTarget where
  | buffer | record | nothing

def Fsm.target (f : Fsm) : RowTarget :=
  match f with
  | .wTxRdy | .wPut | .wTxc | .rPut | .rRxRdy | .rGet | .sScan => .buffer
  | .awaitingHeader | .eHeaderLo | .eHeaderHi | .eTrailerLo | .eTrailerHi | .eSend => .record
  | .idle | .validatingChecksum | .accepted | .rejected | .channelError => .nothing

/-- IDX is a position of the buffer, and the buffer is memory. -/
def AtBuffer (s : State) : Prop := s.idx < s.len ∧ PtrRun s s.len

/-- IDX is not in use, and the record is memory. -/
def AtRecord (s : State) : Prop := s.idx = 0 ∧ PtrRun s 32

/-- Where IDX stands at a row, and the addresses the rows from there on may store to. -/
def RowPlace (s : State) : Prop :=
  match s.fsm.target with
  | .buffer => AtBuffer s
  | .record => AtRecord s
  | .nothing => s.idx = 0

/-- What holds at every row of a running command. -/
structure RowInv (s : State) : Prop where
  mem : MemOk s.cfg s.mem
  cnt : s.cnt ≤ s.limit
  place : RowPlace s

theorem rowPlace_buffer {s : State} (hf : s.fsm.target = .buffer) : RowPlace s ↔ AtBuffer s := by
  rw [RowPlace, hf]

theorem rowPlace_record {s : State} (hf : s.fsm.target = .record) : RowPlace s ↔ AtRecord s := by
  rw [RowPlace, hf]

theorem rowPlace_nothing {s : State} (hf : s.fsm.target = .nothing) : RowPlace s ↔ s.idx = 0 := by
  rw [RowPlace, hf]

theorem RowInv.idx_lt {s : State} (h : RowInv s) (hlen : s.len < 2 ^ s.cfg.addrW) : s.idx < 2 ^ s.cfg.addrW := by
  have hpos : 0 < 2 ^ s.cfg.addrW := by positivity
  have hplace := h.place
  cases hf : s.fsm.target with
  | buffer => exact Nat.lt_trans ((rowPlace_buffer hf).1 hplace).1 hlen
  | record => rwa [((rowPlace_record hf).1 hplace).1]
  | nothing => rwa [(rowPlace_nothing hf).1 hplace]

theorem AtBuffer.rowInv {s : State} (h : AtBuffer s) (hm : MemOk s.cfg s.mem) (hc : s.cnt ≤ s.limit)
    (hf : s.fsm.target = .buffer) : RowInv s :=
  ⟨hm, hc, (rowPlace_buffer hf).2 h⟩

theorem AtRecord.rowInv {s : State} (h : AtRecord s) (hm : MemOk s.cfg s.mem) (hc : s.cnt ≤ s.limit)
    (hf : s.fsm.target = .record) : RowInv s :=
  ⟨hm, hc, (rowPlace_record hf).2 h⟩

/-- Every end of a command clears CNT and IDX. -/
theorem rowInv_finish {s : State} (hm : MemOk s.cfg s.mem) (o : OutcomeCode) : RowInv (s.finish o) :=
  ⟨hm, Nat.zero_le _, rfl⟩

theorem rowInv_setFsm_nothing {s : State} (hs : RowInv s) (hi : s.idx = 0) {f : Fsm} (hf : f.target = .nothing) :
    RowInv (s.setFsm f) :=
  ⟨hs.mem, hs.cnt, (rowPlace_nothing hf).2 hi⟩

/-- The next position of the buffer, when this one is not the last. -/
theorem AtBuffer.next {s : State} (h : AtBuffer s) (hne : ¬ s.idx + 1 = s.len) : AtBuffer (s.setIdx (s.idx + 1)) :=
  ⟨Nat.lt_of_le_of_ne h.1 hne, h.2⟩

/-- The entry of a command sets IDX to 0 on a non-empty legal buffer, or leaves it 0 at a legal record. -/
theorem fsmStart_rowInv {i : Instr} {s t : State} (hs : Inv s) (h : fsmStart i s = .next t) : RowInv t := by
  have hrej : RowInv (rejectArgs i s) := by
    rw [rejectArgs_eq]
    exact ⟨hs.memOk, Nat.zero_le _, rfl⟩
  have hcnt : s.cnt ≤ s.limit := by simp [hs.cnt]
  cases i with
  | write | wtr | resync =>
    rcases enter_eq_next h with ⟨-, rfl⟩ | ⟨ha, hl, h⟩
    · exact hrej
    · cases h
      obtain ⟨-, hlen⟩ : ¬ s.ptr = 0 ∧ ¬ s.len = 0 := by simpa [argInvalid] using ha
      have hb : AtBuffer (s.setIdx 0) := ⟨Nat.pos_of_ne_zero hlen, ptrRun_of_legalExtent hl⟩
      exact AtBuffer.rowInv hb hs.memOk (by simp [hcnt]) rfl
  | encode | decode =>
    rcases enter_eq_next h with ⟨-, rfl⟩ | ⟨-, hl, h⟩
    · exact hrej
    · cases h
      have hr : AtRecord s := ⟨hs.idx, ptrRun_of_legalExtent hl⟩
      exact AtRecord.rowInv hr hs.memOk hcnt rfl

/-- A row that polls counts only below LIMIT (40_polling_fsm.md R120). -/
theorem pollRow_rowInv {p : Pred} {s : State} {yes : State → State} (hs : RowInv s)
    (hy : ∀ e es, RowInv (yes (s.heard e es))) : RowInv (pollRow p s yes) := by
  unfold pollRow
  split
  · exact rowInv_finish hs.mem _
  · rename_i hne
    obtain ⟨r, e, h⟩ := ask_cases p s
    rw [h]
    cases r with
    | true => exact hy e _
    | false =>
      have hcnt : s.cnt + 1 ≤ s.limit := Nat.lt_of_le_of_ne hs.cnt hne
      exact ⟨hs.mem, hcnt, hs.place⟩

theorem rowSent_rowInv {s : State} (hm : MemOk s.cfg s.mem) (hb : AtBuffer s) : RowInv (rowSent s) := by
  unfold rowSent
  split
  · exact rowInv_finish hm _
  · rename_i hne
    exact AtBuffer.rowInv (hb.next hne) hm (Nat.zero_le _) rfl

theorem rowGet_rowInv {s : State} (hm : MemOk s.cfg s.mem) (hc : s.cnt ≤ s.limit) (hb : AtBuffer s) :
    RowInv (rowGet s) := by
  obtain ⟨b, e, h⟩ := getByte_cases s
  have hm' : MemOk s.cfg (s.mem.write (s.ptr + s.idx) b) := hm.write (hb.2 s.idx hb.1) b
  rw [rowGet, h]
  dsimp only
  split
  · exact rowInv_finish hm' _
  · rename_i hne
    exact AtBuffer.rowInv (hb.next hne) hm' hc rfl

theorem rowRecv_rowInv {s : State} (hm : MemOk s.cfg s.mem) (hc : s.cnt ≤ s.limit) (hr : AtRecord s) :
    RowInv (rowRecv s) := by
  obtain ⟨a, e, h⟩ := chRecv_cases s
  rw [rowRecv, h]
  cases a with
  | channelError => exact ⟨hm, hc, hr.1⟩
  | ok bs => exact ⟨hm.writeBytes fun j hj => hr.2 j (by simpa using hj), hc, hr.1⟩

theorem rowTrailer_rowInv {part : Half → Byte} {j : Nat} {next : Fsm} {s t : State} (hs : RowInv s)
    (hr : AtRecord s) (hj : j < 32) (hn : next.target = .record) (h : rowTrailer part j next s = .next t) :
    RowInv t := by
  unfold rowTrailer at h
  split at h
  · cases h
  · cases h
    exact AtRecord.rowInv hr (hs.mem.write (hr.2 j hj) _) hs.cnt hn

theorem rowScan_rowInv {s t : State} (hs : RowInv s) (hb : AtBuffer s) (hf : s.fsm.target = .buffer)
    (h : rowScan s = .next t) : RowInv t := by
  unfold rowScan at h
  split at h
  · cases h; exact rowInv_finish (s := s.setRes 0) hs.mem _
  · rename_i hne
    split at h
    · cases h
    · cases h; exact rowInv_finish (s := s.setRes (s.ptr + s.idx)) hs.mem _
    · cases h; exact (hb.next hne).rowInv hs.mem hs.cnt hf

/-- Every row keeps the invariant of the state tables. -/
theorem fsmStep_keeps_rowInv {s t : State} (hs : RowInv s) (h : fsmStep s = .next t) : RowInv t := by
  have buffer (hf : s.fsm.target = .buffer) : AtBuffer s := (rowPlace_buffer hf).1 hs.place
  have record (hf : s.fsm.target = .record) : AtRecord s := (rowPlace_record hf).1 hs.place
  have nothing (hf : s.fsm.target = .nothing) : s.idx = 0 := (rowPlace_nothing hf).1 hs.place
  unfold fsmStep at h
  cases hf : s.fsm <;> rw [hf] at h buffer record nothing <;> dsimp only at h
  case idle => cases h; exact hs
  case wTxRdy =>
    cases h
    exact pollRow_rowInv hs fun e es => AtBuffer.rowInv (buffer rfl) hs.mem hs.cnt rfl
  case wPut =>
    unfold rowPut at h
    split at h
    · cases h
    · cases h
      exact AtBuffer.rowInv (buffer rfl) hs.mem (Nat.zero_le _) rfl
  case wTxc =>
    cases h
    exact pollRow_rowInv hs fun e es => rowSent_rowInv hs.mem (buffer rfl)
  case rPut =>
    cases h
    exact AtBuffer.rowInv (buffer rfl) hs.mem (Nat.zero_le _) rfl
  case rRxRdy =>
    cases h
    exact pollRow_rowInv hs fun e es => AtBuffer.rowInv (buffer rfl) hs.mem hs.cnt rfl
  case rGet => injection h with h; exact h ▸ rowGet_rowInv hs.mem hs.cnt (buffer rfl)
  case awaitingHeader => injection h with h; exact h ▸ rowRecv_rowInv hs.mem hs.cnt (record rfl)
  case validatingChecksum =>
    unfold rowValidate at h
    split at h
    · cases h
    · rename_i bs _
      injection h with h
      rw [← h]
      exact rowInv_setFsm_nothing hs (nothing rfl) (by split <;> rfl)
  case accepted | rejected | channelError => cases h; exact rowInv_finish hs.mem _
  case eHeaderLo =>
    cases h
    exact AtRecord.rowInv (record rfl) (hs.mem.write ((record rfl).2 0 (by omega)) _) hs.cnt rfl
  case eHeaderHi =>
    cases h
    exact AtRecord.rowInv (record rfl) (hs.mem.write ((record rfl).2 1 (by omega)) _) hs.cnt rfl
  case eTrailerLo => exact rowTrailer_rowInv hs (record rfl) (by omega) rfl h
  case eTrailerHi => exact rowTrailer_rowInv hs (record rfl) (by omega) rfl h
  case eSend =>
    unfold rowSend at h
    split at h
    · cases h
    · rename_i bs _
      obtain ⟨o, e, hsend⟩ := sendRecord_cases bs s
      cases h
      rw [hsend]
      exact rowInv_finish (s := s.heard e _) hs.mem _
  case sScan => exact rowScan_rowInv hs (buffer rfl) (by rw [hf]; rfl) h

theorem fsmStart_keeps {i : Instr} {s t : State} (h : fsmStart i s = .next t) : RowKeeps s t := by
  have hrej : RowKeeps s (rejectArgs i s) := by
    rw [rejectArgs_eq]
    exact ⟨rfl, rfl, rfl, rfl, rfl, rfl, rfl, id⟩
  cases i <;> rcases enter_eq_next h with ⟨-, rfl⟩ | ⟨-, -, h⟩
  case write.inl | wtr.inl | encode.inl | decode.inl | resync.inl => exact hrej
  all_goals cases h; exact ⟨rfl, rfl, rfl, rfl, rfl, rfl, rfl, id⟩

theorem fsmRun_keeps {k : Nat} {s t : State} (hs : RowInv s) (h : fsmRun k s = .next t) :
    RowInv t ∧ RowKeeps s t := by
  induction k generalizing s with
  | zero => cases h; exact ⟨hs, .refl _⟩
  | succ k ih =>
    obtain ⟨u, hu, ht⟩ := onNext_eq_next h
    obtain ⟨hinv, hkeep⟩ := ih (fsmStep_keeps_rowInv hs hu) ht
    exact ⟨hinv, (fsmStep_keeps hu).trans hkeep⟩

/-- Any number of rows of a command that starts from the invariant. -/
theorem commandRows_keep {i : Instr} {k : Nat} {s t : State} (hs : Inv s)
    (h : onNext (fsmStart i s) (fsmRun k) = .next t) : RowInv t ∧ RowKeeps s t := by
  obtain ⟨u, hu, ht⟩ := onNext_eq_next h
  obtain ⟨hinv, hkeep⟩ := fsmRun_keeps (fsmStart_rowInv hs hu) ht
  exact ⟨hinv, (fsmStart_keeps hu).trans hkeep⟩

/-- Settles O55: the invariant of the state tables holds at each row, and no row changes an operand. -/
theorem hiddenCountersNeverOverflow : Obligations.HiddenCountersNeverOverflow := by
  intro i s t k hs h
  obtain ⟨hinv, hkeep⟩ := commandRows_keep hs h
  have hlimit : t.limit < 2 ^ t.cfg.cntW := by rw [hkeep.limit, hkeep.cfg]; exact hs.limit
  have hlen : t.len < 2 ^ t.cfg.addrW := by rw [hkeep.len, hkeep.cfg]; exact hs.len
  exact ⟨hinv.cnt, Nat.lt_of_le_of_lt hinv.cnt hlimit, hinv.idx_lt hlen, hkeep.ptr, hkeep.len, hkeep.fill,
    hkeep.limit, hkeep.cfg, hinv.mem.form⟩

/-! ## Every step keeps the invariant -/

/-- A reset that lands between two rows finds MEM good, whatever CNT and IDX are (70_reset_and_hazards.md R263). -/
theorem commandThenReset_keeps_inv {v k : Nat} {s t : State} (hs : Inv s) (h : commandThenReset v k s = .next t) :
    Inv t := by
  unfold commandThenReset at h
  split at h
  · rename_i i _
    obtain ⟨u, hu, ht⟩ := onNext_eq_next h
    obtain ⟨hinv, hkeep⟩ := commandRows_keep hs hu
    cases ht
    exact inv_blockReset (hkeep.cfg ▸ hs.params) hinv.mem
  · cases h
    exact inv_blockReset hs.params hs.memOk

theorem act_keeps_inv {a : Action} {s t : State} (hs : Inv s) (h : act a s = .next t) : Inv t := by
  cases a with
  | write n v => exact hostWrite_keeps_inv hs h
  | read n => cases h; exact { hs with }
  | poke a bs => exact hostPoke_keeps_inv hs h
  | peek a n => exact hostPeek_keeps_inv hs h
  | reset => cases h; exact inv_blockReset hs.params hs.memOk
  | cmdThenReset v k => exact commandThenReset_keeps_inv hs h

/-- With an action in the script, a step is that action. -/
theorem step_cons {s : State} {a : Action} {rest : List Action} (h : s.script = a :: rest) :
    step s = act a { s with script := rest } := by
  rw [step, nextAction, h]

theorem step_nil {s : State} (h : s.script = []) : step s = .next s := by
  rw [step, nextAction, h]

/-- Settles O57: by the next action of the script; the invariant does not speak of the script. -/
theorem everyStepKeepsTheInvariant : Obligations.EveryStepKeepsTheInvariant := by
  intro s t hs h
  cases hscript : s.script with
  | nil =>
    rw [step_nil hscript] at h
    cases h
    exact hs
  | cons a rest =>
    rw [step_cons hscript] at h
    have hrest : Inv { s with script := rest } := { hs with }
    exact act_keeps_inv hrest h

end Sys2Proof.Machine

namespace Sys2Proof.Machine

/-! ## A write to CMD (10_state.md R27, R34) -/

theorem eq_encode_of_decode {b : Byte} {i : Instr} (h : decode b = .ok i) : b = encode i := by
  unfold decode at h
  split_ifs at h <;> cases h <;> assumption

theorem toNat_opcodeOf (v : Nat) : (opcodeOf v).toNat = v % 256 := BitVec.toNat_ofNat v 8

/-- Only the opcode 5 is RESYNC's (30_encoding.md R93). -/
theorem ne_resync_of_opcode {v : Nat} {i : Instr} (hv : v % 256 ≠ 5) (h : decode (opcodeOf v) = .ok i) :
    i ≠ .resync := by
  rintro rfl
  apply hv
  rw [← toNat_opcodeOf, eq_encode_of_decode h]
  rfl

/-- All that a write to CMD changes: what its command changes, or the outcome of a reserved opcode. -/
theorem command_frame {v : Nat} {s t : State} (h : command v s = .next t) :
    ∃ o e es m r, t = (((s.heard e es).setMem m).setRes r).finish o ∧ (v % 256 ≠ 5 → r = s.res) := by
  rcases command_cases h with ⟨i, hi, h⟩ | rfl
  · obtain ⟨o, e, es, m, r, ht, hres, -⟩ := exec_frame h
    exact ⟨o, e, es, m, r, ht, fun hv => hres (ne_resync_of_opcode hv hi)⟩
  · exact ⟨.illegalCommand, s.env, [], s.mem, s.res, by rw [heard_nil]; rfl, fun _ => rfl⟩

/-- Settles O37: from the frame of a CMD write. -/
theorem commandsPreserveTheirOperands : Obligations.CommandsPreserveTheirOperands := by
  intro v s t h
  obtain ⟨o, e, es, m, r, rfl, -⟩ := command_frame h
  exact ⟨rfl, rfl, rfl, rfl, rfl, rfl, rfl⟩

/-- Settles O38: from the frame of a CMD write, which ends with `finish`. -/
theorem onlyResyncWritesResAndAllEndIdle : Obligations.OnlyResyncWritesResAndAllEndIdle := by
  intro v s t h
  obtain ⟨o, e, es, m, r, rfl, hres⟩ := command_frame h
  exact ⟨hres, rfl, rfl, rfl⟩

/-! ## Statelessness (10_state.md R35) -/

/-- What the effect of a command may depend on: the parameters, the operands, MEM, the answers of the environment. -/
structure SameInputs (s r : State) : Prop where
  cfg : r.cfg = s.cfg
  ptr : r.ptr = s.ptr
  len : r.len = s.len
  fill : r.fill = s.fill
  limit : r.limit = s.limit
  mem : r.mem = s.mem
  env : r.env = s.env

/-- The effect of a command that ends: the outcome, what it leaves in RES if it is RESYNC, MEM, the environment, and
the events of the trace. -/
structure Effect where
  outcome : OutcomeCode
  res : Nat
  mem : Mem
  env : Env
  events : List Event

/-- The state that the effect `f` of the command `i` makes of `s`. -/
def Effect.on (f : Effect) (i : Instr) (s : State) : State :=
  (((s.heard f.env f.events).setMem f.mem).setRes (if i = .resync then f.res else s.res)).finish f.outcome

/-- The effect `f` after the events `es`. -/
def Effect.after (es : List Event) (f : Effect) : Effect := { f with events := es ++ f.events }

/-- The answers `x` from `s` and `y` from `r` are one and the same effect of `i`, or one and the same refusal. -/
inductive SameEffect (i : Instr) (s r : State) : Result → Result → Prop where
  | ends (f : Effect) : SameEffect i s r (.next (f.on i s)) (.next (f.on i r))
  | refused (q : Refusal) : SameEffect i s r (.refused q) (.refused q)

namespace SameEffect

variable {i : Instr} {s r : State} {x y : Result}

/-- The same effect from two later states is the same effect from the first ones, when `g` adds to an effect what led
from these to those. -/
theorem of_later {s' r' : State} (h : SameEffect i s' r' x y) (g : Effect → Effect)
    (hs : ∀ f : Effect, f.on i s' = (g f).on i s) (hr : ∀ f : Effect, f.on i r' = (g f).on i r) :
    SameEffect i s r x y := by
  cases h with
  | ends f => rw [hs, hr]; exact .ends (g f)
  | refused q => exact .refused q

theorem of_heard {e : Env} {es : List Event} (h : SameEffect i (s.heard e es) (r.heard e es) x y) :
    SameEffect i s r x y :=
  h.of_later (Effect.after es) (by simp [Effect.on, Effect.after]) (by simp [Effect.on, Effect.after])

theorem of_putByte {b : Byte} (hb : r.env = s.env) (h : SameEffect i (putByte b s) (putByte b r) x y) :
    SameEffect i s r x y := by
  rw [putByte_eq_heard, putByte_eq_heard, hb] at h
  exact h.of_heard

theorem of_setCnt {c d : Nat} (h : SameEffect i (s.setCnt c) (r.setCnt d) x y) : SameEffect i s r x y :=
  h.of_later id (fun _ => rfl) (fun _ => rfl)

theorem of_setIdx {c d : Nat} (h : SameEffect i (s.setIdx c) (r.setIdx d) x y) : SameEffect i s r x y :=
  h.of_later id (fun _ => rfl) (fun _ => rfl)

theorem of_setMem {m m' : Mem} (h : SameEffect i (s.setMem m) (r.setMem m') x y) : SameEffect i s r x y :=
  h.of_later id (fun _ => rfl) (fun _ => rfl)

end SameEffect

namespace SameInputs

variable {s r : State}

/-- Two runs that end alike; RESYNC puts `a` in RES, no other command writes it. -/
theorem ends (h : SameInputs s r) (i : Instr) (a : Nat) (o : OutcomeCode) :
    SameEffect i s r (.next ((s.setRes (if i = .resync then a else s.res)).finish o))
      (.next ((r.setRes (if i = .resync then a else r.res)).finish o)) := by
  have hon (t : State) (hm : t.mem = s.mem) (he : t.env = s.env) :
      (t.setRes (if i = .resync then a else t.res)).finish o = (Effect.mk o a s.mem s.env []).on i t := by
    simp only [Effect.on, ← hm, ← he, heard_nil]
    rfl
  rw [hon s rfl rfl, hon r h.mem h.env]
  exact .ends _

theorem heard (h : SameInputs s r) (e : Env) (es : List Event) : SameInputs (s.heard e es) (r.heard e es) :=
  { h with env := rfl }

theorem setMem (h : SameInputs s r) (m : Mem) : SameInputs (s.setMem m) (r.setMem m) := { h with mem := rfl }

theorem setCnt (h : SameInputs s r) (c d : Nat) : SameInputs (s.setCnt c) (r.setCnt d) := { h with }

theorem setIdx (h : SameInputs s r) (c d : Nat) : SameInputs (s.setIdx c) (r.setIdx d) := { h with }

theorem putByte (h : SameInputs s r) (b : Byte) : SameInputs (putByte b s) (putByte b r) := { h with }

/-- The entry of a command depends on the operands and the parameters; it leaves 0 in RES for RESYNC only. -/
theorem enter (h : SameInputs s r) {i : Instr} {x y : Result} (hbody : SameEffect i s r x y) :
    SameEffect i s r (enter i s x) (enter i r y) := by
  have hargs : argInvalid i r = argInvalid i s := argInvalid_congr s i r h.ptr h.len
  have hlegal : legalExtent i r = legalExtent i s := legalExtent_congr s i r h.ptr h.len h.cfg
  cases ha : argInvalid i s with
  | true =>
    rw [enter_invalid x ha, enter_invalid y (hargs.trans ha), rejectArgs_eq, rejectArgs_eq]
    exact h.ends i 0 .invalidArgument
  | false =>
    cases hl : legalExtent i s with
    | true => rwa [enter_accepted x ha hl, enter_accepted y (hargs.trans ha) (hlegal.trans hl)]
    | false =>
      rw [enter_illegal x ha hl, enter_illegal y (hargs.trans ha) (hlegal.trans hl)]
      exact .refused _

end SameInputs

/-! What a call of the environment answers, through the environment alone. -/

theorem ask_eq (p : Pred) (s : State) :
    ask p s = ((s.env.nextPred p).1, s.heard (s.env.nextPred p).2 [p.event (s.env.nextPred p).1]) := rfl

theorem getByte_eq (s : State) : getByte s = (s.env.nextByte.1, s.heard s.env.nextByte.2 [.get s.env.nextByte.1]) := rfl

theorem chSend_eq (bs : Frame) (s : State) :
    chSend bs s = (s.env.nextSend.1, s.heard s.env.nextSend.2 [.send bs s.env.nextSend.1]) := rfl

theorem chRecv_eq (s : State) : chRecv s = (s.env.nextRecv.1, s.heard s.env.nextRecv.2 [.recv s.env.nextRecv.1]) := rfl

/-- A wait of at most `n` polls depends on the environment alone. -/
theorem pollLoop_sameEnv (p : Pred) (n : Nat) {s r : State} (h : r.env = s.env) :
    ∃ w e es k, pollLoop p n s = (w, (s.heard e es).setCnt (s.cnt + k)) ∧
      pollLoop p n r = (w, (r.heard e es).setCnt (r.cnt + k)) := by
  induction n generalizing s r with
  | zero => exact ⟨.timeout, s.env, [], 0, by simp; rfl, by simp [← h]; rfl⟩
  | succ n ih =>
    simp only [pollLoop, ask_eq, h]
    generalize s.env.nextPred p = a
    obtain ⟨b, e⟩ := a
    cases b with
    | true => exact ⟨.ready, e, [p.event true], 0, rfl, rfl⟩
    | false =>
      obtain ⟨w, e', es, k, hs, hr⟩ := ih (s := (s.heard e [p.event false]).setCnt (s.cnt + 1))
        (r := (r.heard e [p.event false]).setCnt (r.cnt + 1)) rfl
      exact ⟨w, e', p.event false :: es, k + 1, by simpa [Nat.add_assoc, Nat.add_comm 1] using hs,
        by simpa [Nat.add_assoc, Nat.add_comm 1] using hr⟩

/-- A wait depends on LIMIT and the environment. -/
theorem poll_sameInputs (p : Pred) {s r : State} (h : SameInputs s r) :
    ∃ w e es k, poll p s = (w, (s.heard e es).setCnt k) ∧ poll p r = (w, (r.heard e es).setCnt k) := by
  simpa [poll, h.limit] using pollLoop_sameEnv p s.limit (s := s.setCnt 0) (r := r.setCnt 0) h.env

/-- IDX is the loop variable, so it must agree too. -/
theorem sendLoop_sameEffect (n : Nat) {s r : State} (h : SameInputs s r) (hi : r.idx = s.idx) :
    SameEffect .write s r (sendLoop n s) (sendLoop n r) := by
  induction n generalizing s r with
  | zero => exact h.ends .write 0 .ok
  | succ n ih =>
    obtain ⟨w, e, es, k, hs, hr⟩ := poll_sameInputs .txReady h
    have h1 := (h.heard e es).setCnt k k
    rw [sendLoop, sendLoop, hs, hr]
    refine SameEffect.of_heard (e := e) (es := es) (SameEffect.of_setCnt (c := k) (d := k) ?_)
    cases w with
    | timeout => exact h1.ends .write 0 .timeout
    | ready =>
      dsimp only
      rw [h1.mem, h1.ptr, show ((r.heard e es).setCnt k).idx = ((s.heard e es).setCnt k).idx from hi]
      cases Mem.read ((s.heard e es).setCnt k).mem _ with
      | none => exact .refused _
      | some b =>
        obtain ⟨w', e', es', k', hs', hr'⟩ := poll_sameInputs .txComplete (h1.putByte b)
        have h2 := ((h1.putByte b).heard e' es').setCnt k' k'
        dsimp only
        rw [hs', hr']
        cases w' with
        | timeout => exact (h2.ends .write 0 .timeout).of_setCnt.of_heard.of_putByte h1.env
        | ready => exact (ih (h2.setIdx _ _) (congrArg (· + 1) hi)).of_setIdx.of_setCnt.of_heard.of_putByte h1.env

theorem recvLoop_sameEffect (n : Nat) {s r : State} (h : SameInputs s r) (hi : r.idx = s.idx) :
    SameEffect .wtr s r (recvLoop n s) (recvLoop n r) := by
  induction n generalizing s r with
  | zero => exact h.ends .wtr 0 .ok
  | succ n ih =>
    obtain ⟨w, e, es, k, hs, hr⟩ := poll_sameInputs .rxReady (h.putByte s.fill)
    have h1 := ((h.putByte s.fill).heard e es).setCnt k k
    rw [recvLoop, recvLoop, h.fill, hs, hr]
    refine SameEffect.of_putByte (b := s.fill) h.env ?_
    refine SameEffect.of_heard (e := e) (es := es) (SameEffect.of_setCnt (c := k) (d := k) ?_)
    cases w with
    | timeout => exact h1.ends .wtr 0 .timeout
    | ready =>
      simp only [getByte_eq, h1.env]
      generalize Env.nextByte _ = a
      obtain ⟨b, e'⟩ := a
      have h2 := h1.heard e' [.get b]
      have h3 := (h2.setMem (s.mem.write (s.ptr + s.idx) b)).setIdx (s.idx + 1) (s.idx + 1)
      simp only [heard_mem, heard_ptr, heard_idx, h1.mem, h1.ptr, setCnt_idx, putByte_idx, hi]
      exact (ih h3 rfl).of_setIdx.of_setMem.of_heard

theorem sendRecord_sameEffect (bs : Frame) {s r : State} (h : SameInputs s r) :
    SameEffect .encode s r (.next (sendRecord bs s)) (.next (sendRecord bs r)) := by
  simp only [sendRecord, chSend_eq, h.env]
  generalize Env.nextSend _ = a
  obtain ⟨o, e⟩ := a
  have h1 := h.heard e [.send bs o]
  refine SameEffect.of_heard (e := e) (es := [.send bs o]) ?_
  cases o with
  | ok => exact h1.ends .encode 0 .ok
  | channelError => exact h1.ends .encode 0 .channelError

theorem encodeBody_sameEffect {s r : State} (h : SameInputs s r) :
    SameEffect .encode s r (encodeBody s) (encodeBody r) := by
  rw [encodeBody, encodeBody, h.mem, h.ptr]
  cases encodeRecord s.mem s.ptr with
  | none => exact .refused _
  | some x => exact (sendRecord_sameEffect x.2 (h.setMem x.1)).of_setMem

theorem decodeBody_sameEffect {s r : State} (h : SameInputs s r) :
    SameEffect .decode s r (decodeBody s) (decodeBody r) := by
  simp only [decodeBody, chRecv_eq, h.env]
  generalize Env.nextRecv _ = a
  obtain ⟨a, e⟩ := a
  have h1 := h.heard e [.recv a]
  refine SameEffect.of_heard (e := e) (es := [.recv a]) ?_
  cases a with
  | channelError => exact h1.ends .decode 0 .channelError
  | ok bs =>
    dsimp only
    rw [h1.mem, h1.ptr]
    exact ((h1.setMem (s.mem.writeBytes s.ptr bs.toList)).ends .decode 0
      (if frameValid bs then .ok else .malformed)).of_setMem

theorem scanLoop_sameEffect (n : Nat) {s r : State} (h : SameInputs s r) (hi : r.idx = s.idx) :
    SameEffect .resync s r (scanLoop n s) (scanLoop n r) := by
  induction n generalizing s r with
  | zero => exact h.ends .resync 0 .notFound
  | succ n ih =>
    rw [scanLoop, scanLoop, h.mem, h.ptr, hi]
    cases testPair s.mem (s.ptr + s.idx) with
    | unwritten => exact .refused _
    | isHeader => exact h.ends .resync (s.ptr + s.idx) .ok
    | isNot => exact (ih (h.setIdx _ _) rfl).of_setIdx

/-- The effect of a command is a function of its inputs, case by case over the commands. -/
theorem exec_sameEffect (i : Instr) {s r : State} (h : SameInputs s r) : SameEffect i s r (exec i s) (exec i r) := by
  have h0 := h.setIdx 0 0
  cases i with
  | write => exact h.enter (h.len ▸ (sendLoop_sameEffect s.len h0 rfl).of_setIdx)
  | wtr => exact h.enter (h.len ▸ (recvLoop_sameEffect s.len h0 rfl).of_setIdx)
  | encode => exact h.enter (encodeBody_sameEffect h)
  | decode => exact h.enter (decodeBody_sameEffect h)
  | resync => exact h.enter (h.len ▸ (scanLoop_sameEffect (s.len - 1) h0 rfl).of_setIdx)

/-- Settles O41: two runs with the same inputs have the same effect, and an effect does not read what is left out of
the inputs. -/
theorem commandsAreStateless : Obligations.CommandsAreStateless := by
  intro i s r hcfg hptr hlen hfill hlimit hmem henv
  have same := exec_sameEffect i ⟨hcfg, hptr, hlen, hfill, hlimit, hmem, henv⟩
  generalize exec i s = x at same
  generalize exec i r = y at same
  cases same with
  | refused q => exact ⟨nofun, fun _ h => h⟩
  | ends f =>
    refine ⟨?_, nofun⟩
    rintro t ⟨⟩
    refine ⟨f.on i r, f.events, rfl, rfl, rfl, rfl, rfl, rfl, ?_⟩
    by_cases hi : i = .resync <;> simp [Effect.on, hi]

end Sys2Proof.Machine

namespace Sys2Proof.Machine

/-! ## A step of the CMD write -/

theorem command_of_decode {v : Nat} {i : Instr} (h : decode (opcodeOf v) = .ok i) (s : State) :
    command v s = exec i s := by
  rw [command, h]

theorem decodeTableWord_eq_some {nbits w : Nat} {i : Instr} (h : decodeTableWord nbits w = some i) :
    decode (opcodeOf (w % 2 ^ nbits)) = .ok i := by
  unfold decodeTableWord at h
  split at h
  · rename_i j hj
    cases h
    exact hj
  · cases h

theorem step_withFetchWord (s : State) (nbits w : Nat) :
    step (s.withFetchWord nbits w) = command (w % 2 ^ nbits) s := rfl

/-- Settles O5: the action at the head of the script is the CMD write, and it runs the decoded command. -/
theorem stepRunsTheDecodedCommand : Obligations.StepRunsTheDecodedCommand := by
  refine ⟨fun s v rest i hscript hdec _ => ?_, fun s w i hdec => ?_⟩
  · rw [step_cons hscript]
    exact command_of_decode hdec _
  · rw [step_withFetchWord]
    exact command_of_decode (decodeTableWord_eq_some hdec) s

/-! ## The host port (10_state.md R21, R36) -/

theorem hostWrite_above {n : Nat} (hn : 6 < n) (v : Nat) (s : State) : hostWrite n v s = .next s := by
  obtain ⟨k, rfl⟩ := Nat.exists_eq_add_of_le' hn
  rfl

theorem hostRead_above {n : Nat} (hn : 6 < n) (s : State) : hostRead n s = 0 := by
  obtain ⟨k, rfl⟩ := Nat.exists_eq_add_of_le' hn
  rfl

/-- Settles O6: the write of each read-write register. -/
theorem hostWriteStoresTheTruncatedValue : Obligations.HostWriteStoresTheTruncatedValue := by
  intro s v
  exact ⟨rfl, rfl, ⟨_, rfl, BitVec.toNat_ofNat v 8, rfl⟩, rfl⟩

/-- Settles O7: by the register number. -/
theorem oddHostAccessesAreHarmless : Obligations.OddHostAccessesAreHarmless := by
  intro s n v
  refine ⟨rfl, rfl, rfl, fun hn => ⟨hostRead_above hn s, hostWrite_above hn v s⟩, ?_, ⟨_, rfl, rfl⟩⟩
  rintro (rfl | rfl | rfl | rfl)
  · exact ⟨_, rfl, rfl, rfl⟩
  · exact ⟨_, rfl, rfl, rfl⟩
  · exact ⟨_, rfl, rfl, BitVec.toNat_ofNat v 8⟩
  · exact ⟨_, rfl, rfl, rfl⟩

/-! ## STATUS (10_state.md R28, R29) -/

theorem toNat_status (s : State) : s.status.toNat = s.outcome.code.toNat :=
  BitVec.toNat_setWidth_of_le (by decide)

/-- The outcome with a code (the table of 10_state.md R29). -/
def OutcomeCode.ofCode (c : BitVec 3) : OutcomeCode :=
  match c.toNat with
  | 0 => .none
  | 1 => .ok
  | 2 => .timeout
  | 3 => .channelError
  | 4 => .malformed
  | 5 => .invalidArgument
  | 6 => .notFound
  | _ => .illegalCommand

theorem ofCode_code (o : OutcomeCode) : OutcomeCode.ofCode o.code = o := by
  cases o <;> rfl

theorem code_injective : Function.Injective OutcomeCode.code :=
  Function.LeftInverse.injective ofCode_code

/-- Settles O9: the code of an outcome has 3 bits and is read back by `OutcomeCode.ofCode`. -/
theorem statusReadsDistinctOutcomeCodes : Obligations.StatusReadsDistinctOutcomeCodes := by
  refine ⟨fun s => ⟨toNat_status s, ?_⟩, fun o o' h => code_injective h, by decide⟩
  rw [toNat_status]
  exact s.outcome.code.isLt

/-- What HOST reads, by the register number. -/
theorem hostRead_eq (n : Nat) (s : State) :
    hostRead n s =
      if n = 1 then s.outcome.code.toNat
      else if n = 2 then s.ptr
      else if n = 3 then s.len
      else if n = 4 then s.fill.toNat
      else if n = 5 then s.limit
      else if n = 6 then s.res
      else 0 := by
  match n with
  | 0 | 2 | 3 | 4 | 5 | 6 => rfl
  | 1 => exact toNat_status s
  | n + 7 => simp [hostRead]

/-- Settles O8: a read answers `hostRead`. -/
theorem hostReadReturnsTheRegister : Obligations.HostReadReturnsTheRegister := by
  intro s n rest hscript
  rw [step_cons hscript, ← hostRead_eq n s]
  rfl

/-! ## Power-on (10_state.md R41) -/

/-- Settles O14: the fields of `State.resetWith`, one by one. -/
theorem powerOnStateHasTheResetValues : Obligations.PowerOnStateHasTheResetValues := by
  intro p
  exact ⟨_, rfl, rfl, rfl, rfl, rfl, rfl, rfl, rfl, rfl, rfl, rfl, rfl, rfl, read_nil, rfl⟩

/-- Power-on leaves the block as a reset does, with MEM empty. -/
theorem resetWith_inv {p : Params} (hp : p.wellFormed = true) : Inv (State.resetWith p) :=
  inv_blockReset (s := State.resetWith p) hp ⟨reset_mem_wf p, by simp⟩

/-- Settles O56: legal parameters, and those of `State.reset` are legal. -/
theorem resetSatisfiesTheInvariant : Obligations.ResetSatisfiesTheInvariant :=
  ⟨fun _ hp => resetWith_inv hp, resetWith_inv (by decide)⟩

end Sys2Proof.Machine

namespace Sys2Proof.Machine

/-! ## A command is its entry and then its body (60_exceptions.md R237) -/

/-- What a command does once its entry has accepted it. -/
def commandBody (i : Instr) (s : State) : Result :=
  match i with
  | .write => sendLoop s.len (s.setIdx 0)
  | .wtr => recvLoop s.len (s.setIdx 0)
  | .encode => encodeBody s
  | .decode => decodeBody s
  | .resync => scanLoop (s.len - 1) (s.setIdx 0)

theorem exec_eq_enter (i : Instr) (s : State) : exec i s = enter i s (commandBody i s) := by
  cases i <;> rfl

theorem argInvalid_of_ptr_zero {s : State} (h : s.ptr = 0) (i : Instr) : argInvalid i s = true := by
  cases i <;> simp [argInvalid, h]

/-- A null buffer is turned away at the entry (60_exceptions.md R234). -/
theorem exec_of_ptr_zero {s : State} (h : s.ptr = 0) (i : Instr) : exec i s = .next (rejectArgs i s) := by
  rw [exec_eq_enter, enter_invalid _ (argInvalid_of_ptr_zero h i)]

/-! ## What a wait and the loops of WRITE and WTR do, over every MEM (40_polling_fsm.md R120, R124, R126) -/

/-- A wait under the same ceiling gets the same answers from the same environment. -/
theorem poll_of_sameEnv {p : Pred} {s r : State} {w : PollResult} {e : Env} {es : List Event} {k : Nat}
    (henv : r.env = s.env) (hlimit : r.limit = s.limit) (h : poll p s = (w, (s.heard e es).setCnt k)) :
    poll p r = (w, (r.heard e es).setCnt k) := by
  obtain ⟨w', e', es', k', hs, hr⟩ := pollLoop_sameEnv p s.limit (s := s.setCnt 0) (r := r.setCnt 0) henv
  rw [poll, hs, Prod.mk.injEq] at h
  rw [poll, hlimit, hr]
  obtain ⟨rfl, h⟩ := h
  obtain rfl : e' = e := congrArg State.env h
  obtain rfl : es' = es := List.append_cancel_left (congrArg State.trace h)
  obtain rfl : 0 + k' = k := congrArg State.cnt h
  rfl

/-- The answer of a wait, its polls and what it leaves of the environment are a function of the environment and LIMIT;
none of its events is a transfer. -/
theorem poll_answer (p : Pred) (limit : Nat) (e : Env) :
    ∃ w e' es k, transfers es = [] ∧
      ∀ s : State, s.env = e → s.limit = limit → poll p s = (w, (s.heard e' es).setCnt k) := by
  rcases poll_cases p { State.reset with env := e, limit := limit } with ⟨k, e', -, h⟩ | ⟨e', h⟩
  · exact ⟨.ready, e', readyPolls p k, k, by simp, fun s henv hlimit => poll_of_sameEnv henv hlimit h⟩
  · exact ⟨.timeout, e', timeoutPolls p limit, limit, by simp, fun s henv hlimit => poll_of_sameEnv henv hlimit h⟩

/-- How the loop of WRITE goes when it comes to read no unwritten byte: how many bytes it puts, the outcome, the
environment it leaves, and its events, which carry the bytes put. -/
structure SendPlan where
  puts : Nat
  outcome : OutcomeCode
  env : Env
  events : List Byte → List Event

/-- `p` is how the loop goes with `n` bytes still to send, from the environment `e` under the ceiling `limit`, over
every MEM and wherever the buffer lies: the environment alone decides how many bytes are read. -/
structure SendPlan.Runs (p : SendPlan) (n limit : Nat) (e : Env) : Prop where
  puts_le : p.puts ≤ n
  transfers : ∀ bs : List Byte, bs.length = p.puts → transfers (p.events bs) = bs.map .put
  ends : ∀ (s : State) (bs : List Byte), s.env = e → s.limit = limit → bs.length = p.puts →
    HoldsBytes s.mem (s.ptr + s.idx) bs → sendLoop n s = .next ((s.heard p.env (p.events bs)).finish p.outcome)
  refused : ∀ s : State, s.env = e → s.limit = limit → (∃ j < p.puts, s.mem.read (s.ptr + s.idx + j) = none) →
    sendLoop n s = .refused .unwrittenByte

theorem holdsBytes_nil (m : Mem) (a : Nat) : HoldsBytes m a [] := by
  intro j hj
  cases hj

theorem holdsBytes_cons {m : Mem} {a : Nat} {b : Byte} {bs : List Byte} :
    HoldsBytes m a (b :: bs) ↔ m.read a = some b ∧ HoldsBytes m (a + 1) bs := by
  constructor
  · intro h
    refine ⟨h 0 (by simp), fun j hj => ?_⟩
    rw [Nat.add_assoc, Nat.add_comm 1]
    exact h (j + 1) (by simpa using hj)
  · rintro ⟨hb, hbs⟩ j hj
    cases j with
    | zero => exact hb
    | succ j => simpa [Nat.add_assoc, Nat.add_comm 1] using hbs j (by simpa using hj)

/-- A run of addresses holds bytes unless one of them is unwritten. -/
theorem exists_holdsBytes_or_unwritten (m : Mem) (a n : Nat) :
    (∃ bs : List Byte, bs.length = n ∧ HoldsBytes m a bs) ∨ ∃ j < n, m.read (a + j) = none := by
  induction n generalizing a with
  | zero => exact .inl ⟨[], rfl, holdsBytes_nil m a⟩
  | succ n ih =>
    cases hb : m.read a with
    | none => exact .inr ⟨0, by omega, hb⟩
    | some b =>
      rcases ih (a + 1) with ⟨bs, hlen, hbs⟩ | ⟨j, hj, hnone⟩
      · exact .inl ⟨b :: bs, by simp [hlen], holdsBytes_cons.2 ⟨hb, hbs⟩⟩
      · exact .inr ⟨j + 1, by omega, by rwa [Nat.add_comm j, ← Nat.add_assoc]⟩

/-- The loop of WRITE when its next wait is not answered. -/
theorem sendLoop_notReady {n : Nat} {s t : State} (h : poll .txReady s = (.timeout, t)) :
    sendLoop (n + 1) s = .next (t.finish .timeout) := by
  rw [sendLoop, h]

/-- The loop of WRITE at an unwritten byte. -/
theorem sendLoop_unwritten {n : Nat} {s t : State} (h : poll .txReady s = (.ready, t))
    (hb : t.mem.read (t.ptr + t.idx) = none) : sendLoop (n + 1) s = .refused .unwrittenByte := by
  simp only [sendLoop, h, hb]

/-- The loop of WRITE when the byte it has put is not reported sent. -/
theorem sendLoop_notComplete {n : Nat} {s t u : State} {b : Byte} (h : poll .txReady s = (.ready, t))
    (hb : t.mem.read (t.ptr + t.idx) = some b) (h' : poll .txComplete (putByte b t) = (.timeout, u)) :
    sendLoop (n + 1) s = .next (u.finish .timeout) := by
  simp only [sendLoop, h, hb, h']

/-- The loop of WRITE after a byte sent. -/
theorem sendLoop_sent {n : Nat} {s t u : State} {b : Byte} (h : poll .txReady s = (.ready, t))
    (hb : t.mem.read (t.ptr + t.idx) = some b) (h' : poll .txComplete (putByte b t) = (.ready, u)) :
    sendLoop (n + 1) s = sendLoop n (u.setIdx (u.idx + 1)) := by
  simp only [sendLoop, h, hb, h']

/-- The loop of WRITE has a plan, by induction on the bytes still to send: at each, either wait may time out. -/
theorem exists_sendPlan (n limit : Nat) (e : Env) : ∃ p : SendPlan, p.Runs n limit e := by
  induction n generalizing e with
  | zero =>
    refine ⟨⟨0, .ok, e, fun _ => []⟩, le_rfl, by simp, fun s bs he _ _ _ => ?_, by simp⟩
    subst he
    simp [sendLoop]
  | succ n ih =>
    obtain ⟨w, e1, es1, k1, hes1, h1⟩ := poll_answer .txReady limit e
    cases w with
    | timeout =>
      refine ⟨⟨0, .timeout, e1, fun _ => es1⟩, by simp, by simp [hes1], fun s bs he hl _ _ => ?_, by simp⟩
      rw [sendLoop_notReady (h1 s he hl), finish_setCnt]
    | ready =>
      obtain ⟨w, e2, es2, k2, hes2, h2⟩ := poll_answer .txComplete limit e1
      cases w with
      | timeout =>
        refine ⟨⟨1, .timeout, e2, fun bs => es1 ++ bs.map .put ++ es2⟩, by simp, ?_, fun s bs he hl hbs hm => ?_,
          fun s he hl hm => ?_⟩
        · intro bs hbs
          obtain ⟨b, rfl⟩ := List.length_eq_one_iff.1 hbs
          simp [hes1, hes2]
        · obtain ⟨b, rfl⟩ := List.length_eq_one_iff.1 hbs
          rw [sendLoop_notComplete (h1 s he hl) (holdsBytes_cons.1 hm).1 (h2 _ rfl hl)]
          simp [putByte_eq_heard]
        · obtain ⟨j, hj, hnone⟩ := hm
          obtain rfl : j = 0 := by simpa using hj
          exact sendLoop_unwritten (h1 s he hl) hnone
      | ready =>
        obtain ⟨p, hp⟩ := ih e2
        have sent {s : State} {b : Byte} (he : s.env = e) (hl : s.limit = limit)
            (hb : s.mem.read (s.ptr + s.idx) = some b) :
            sendLoop (n + 1) s =
              sendLoop n (((s.heard e2 (es1 ++ .put b :: es2)).setCnt k2).setIdx (s.idx + 1)) := by
          rw [sendLoop_sent (h1 s he hl) hb (h2 _ rfl hl)]
          simp [putByte_eq_heard]
        refine ⟨⟨p.puts + 1, p.outcome, p.env, fun bs => es1 ++ (bs.take 1).map .put ++ es2 ++ p.events bs.tail⟩,
          by simpa using hp.puts_le, ?_, fun s bs he hl hbs hm => ?_, fun s he hl hm => ?_⟩
        · rintro (_ | ⟨b, bs⟩) hbs
          · cases hbs
          · simp [hes1, hes2, hp.transfers bs (by simpa using hbs)]
        · cases bs with
          | nil => cases hbs
          | cons b bs =>
            obtain ⟨hb, hm⟩ := holdsBytes_cons.1 hm
            rw [sent he hl hb]
            refine Eq.trans (hp.ends _ bs rfl hl (by simpa using hbs) hm) ?_
            simp
        · cases hb : s.mem.read (s.ptr + s.idx) with
          | none => exact sendLoop_unwritten (h1 s he hl) hb
          | some b =>
            obtain ⟨j, hj, hnone⟩ := hm
            cases j with
            | zero => rw [Nat.add_zero, hb] at hnone; cases hnone
            | succ j =>
              rw [sent he hl hb]
              refine hp.refused _ rfl hl ⟨j, by simpa using hj, ?_⟩
              simpa [Nat.add_assoc, Nat.add_comm 1] using hnone

/-- The transfers of a WTR that received `bs`: each put is followed by its get; a last put may go unanswered. -/
def RecvTransfers (fill : Byte) (bs : List Byte) (es : List Event) : Prop :=
  ∃ last : List Event, transfers es = bs.flatMap (fun b => [.put fill, .get b]) ++ last ∧
    (last = [] ∨ last = [.put fill])

/-- The loop of WTR when its next wait is not answered. -/
theorem recvLoop_notReady {n : Nat} {s t : State} (h : poll .rxReady (putByte s.fill s) = (.timeout, t)) :
    recvLoop (n + 1) s = .next (t.finish .timeout) := by
  rw [recvLoop, h]

/-- The loop of WTR after a byte received. -/
theorem recvLoop_received {n : Nat} {s t : State} (h : poll .rxReady (putByte s.fill s) = (.ready, t)) :
    recvLoop (n + 1) s = recvLoop n (((getByte t).2.setMem
      (t.mem.write (t.ptr + t.idx) (getByte t).1)).setIdx (t.idx + 1)) := by
  simp only [recvLoop, h]
  rfl

/-- The loop of WTR reads no byte of MEM: from the environment, FILL and LIMIT follow its outcome, its events and the
bytes it stores. -/
theorem exists_recvRun (n limit : Nat) (fill : Byte) (e : Env) :
    ∃ o e' es bs, bs.length ≤ n ∧ RecvTransfers fill bs es ∧
      ∀ s : State, s.env = e → s.limit = limit → s.fill = fill →
        recvLoop n s = .next (((s.heard e' es).setMem (s.mem.writeBytes (s.ptr + s.idx) bs)).finish o) := by
  induction n generalizing e with
  | zero =>
    refine ⟨.ok, e, [], [], le_rfl, ⟨[], rfl, .inl rfl⟩, fun s he _ _ => ?_⟩
    subst he
    simp [recvLoop, Mem.writeBytes]
    rfl
  | succ n ih =>
    obtain ⟨w, e1, es1, k, hes1, h1⟩ := poll_answer .rxReady limit e
    cases w with
    | timeout =>
      refine ⟨.timeout, e1, .put fill :: es1, [], by simp, ⟨[.put fill], by simp [hes1], .inr rfl⟩,
        fun s he hl hf => ?_⟩
      rw [recvLoop_notReady (h1 (putByte s.fill s) he hl)]
      simp [putByte_eq_heard, Mem.writeBytes, hf]
      rfl
    | ready =>
      obtain ⟨b, e2, hb⟩ : ∃ b e2, e1.nextByte = (b, e2) := ⟨_, _, rfl⟩
      have received {s : State} (he : s.env = e) (hl : s.limit = limit) (hf : s.fill = fill) :
          recvLoop (n + 1) s = recvLoop n ((((s.heard e2 (.put fill :: (es1 ++ [.get b]))).setMem
            (s.mem.write (s.ptr + s.idx) b)).setCnt k).setIdx (s.idx + 1)) := by
        rw [recvLoop_received (h1 (putByte s.fill s) he hl)]
        simp [getByte_eq, hb, putByte_eq_heard, hf]
      obtain ⟨o, e3, es2, bs, hlen, ⟨last, htr, hlast⟩, h2⟩ := ih e2
      refine ⟨o, e3, .put fill :: (es1 ++ .get b :: es2), b :: bs, by simpa using hlen,
        ⟨last, by simp [hes1, htr], hlast⟩, fun s he hl hf => ?_⟩
      rw [received he hl hf]
      refine Eq.trans (h2 _ rfl hl hf) ?_
      simp [Mem.writeBytes, Nat.add_assoc]

end Sys2Proof.Machine

namespace Sys2Proof.Machine

/-! ## Extents (20_memory.md R64) -/

theorem scanLoop_ne_illegalExtent (n : Nat) (s : State) : scanLoop n s ≠ .refused .illegalExtent := by
  induction n generalizing s with
  | zero => rw [scanLoop]; nofun
  | succ n ih =>
    rw [scanLoop]
    cases testPair s.mem (s.ptr + s.idx) with
    | isHeader => nofun
    | isNot => exact ih _
    | unwritten => nofun

/-- Past its entry a command is refused for no extent. -/
theorem commandBody_ne_illegalExtent (i : Instr) (s : State) : commandBody i s ≠ .refused .illegalExtent := by
  cases i with
  | write =>
    obtain ⟨p, hp⟩ := exists_sendPlan s.len s.limit s.env
    rw [commandBody]
    rcases exists_holdsBytes_or_unwritten s.mem s.ptr p.puts with ⟨bs, hlen, hm⟩ | hm
    · rw [hp.ends (s.setIdx 0) bs rfl rfl hlen hm]; nofun
    · rw [hp.refused (s.setIdx 0) rfl rfl hm]; nofun
  | wtr =>
    obtain ⟨o, e, es, bs, -, -, h⟩ := recvLoop_frame s.len (s.setIdx 0)
    rw [commandBody, h]; nofun
  | encode =>
    rw [commandBody, encodeBody]
    cases encodeRecord s.mem s.ptr <;> nofun
  | decode =>
    rcases decodeBody_cases s with ⟨e, h⟩ | ⟨bs, e, h⟩ <;> rw [commandBody, h] <;> nofun
  | resync => exact scanLoop_ne_illegalExtent _ _

/-- A command with valid arguments is refused for its extent exactly when the extent is not backed by memory. -/
theorem exec_illegalExtent_iff {i : Instr} {s : State} {n : Nat} (hargs : argInvalid i s = false)
    (hextent : extentLen i s = n) (hn : n ≠ 0) : ¬ Backed s n ↔ exec i s = .refused .illegalExtent := by
  subst hextent
  rw [← legalExtent_iff_backed hn, exec_eq_enter]
  cases hl : legalExtent i s with
  | true =>
    rw [enter_accepted _ hargs hl]
    simp [commandBody_ne_illegalExtent i s]
  | false =>
    rw [enter_illegal _ hargs hl]
    simp

/-- Settles O21: the extent is tested at the entry, and no command is refused for it later. -/
theorem illegalExtentIsRefused : Obligations.IllegalExtentIsRefused := by
  refine ⟨fun i s hi hptr hlen => ?_, fun i s hi hptr => ?_⟩
  · rcases hi with rfl | rfl | rfl <;>
      exact exec_illegalExtent_iff (by simp [argInvalid, hptr, hlen]) rfl hlen
  · rcases hi with rfl | rfl <;>
      exact exec_illegalExtent_iff (by simp [argInvalid, hptr]) rfl (by decide)

/-! ## The order of transfers (20_memory.md R71) -/

/-- What a WRITE puts stands in the buffer, in order. -/
theorem execWrite_transfers {s t : State} {es : List Event} (h : execWrite s = .next t)
    (htrace : t.trace = s.trace ++ es) :
    ∃ bs : List Byte, bs.length ≤ s.len ∧ HoldsBytes s.mem s.ptr bs ∧ transfers es = bs.map .put := by
  rcases enter_eq_next h with ⟨-, rfl⟩ | ⟨-, -, h⟩
  · obtain rfl : es = [] := by simpa using htrace
    exact ⟨[], Nat.zero_le _, holdsBytes_nil _ _, rfl⟩
  · obtain ⟨p, hp⟩ := exists_sendPlan s.len s.limit s.env
    rcases exists_holdsBytes_or_unwritten s.mem s.ptr p.puts with ⟨bs, hlen, hm⟩ | hm
    · rw [hp.ends (s.setIdx 0) bs rfl rfl hlen hm] at h
      cases h
      obtain rfl : p.events bs = es := List.append_cancel_left htrace
      exact ⟨bs, hlen ▸ hp.puts_le, hm, hp.transfers bs hlen⟩
    · rw [hp.refused (s.setIdx 0) rfl rfl hm] at h
      cases h

/-- What a WTR gets stands in the buffer after it, in order. -/
theorem execWtr_transfers {s t : State} {es : List Event} (h : execWtr s = .next t)
    (htrace : t.trace = s.trace ++ es) :
    ∃ bs : List Byte, bs.length ≤ s.len ∧ HoldsBytes t.mem s.ptr bs ∧ RecvTransfers s.fill bs es := by
  rcases enter_eq_next h with ⟨-, rfl⟩ | ⟨-, -, h⟩
  · obtain rfl : es = [] := by simpa using htrace
    exact ⟨[], Nat.zero_le _, holdsBytes_nil _ _, [], rfl, .inl rfl⟩
  · obtain ⟨o, e, es', bs, hlen, htr, hrun⟩ := exists_recvRun s.len s.limit s.fill s.env
    rw [hrun (s.setIdx 0) rfl rfl rfl] at h
    cases h
    obtain rfl : es' = es := List.append_cancel_left htrace
    exact ⟨bs, hlen, holdsBytes_writeBytes s.mem s.ptr bs, htr⟩

/-- Settles O29: from the plan of a WRITE and the run of a WTR. -/
theorem bytesAreTransferredInOrder : Obligations.BytesAreTransferredInOrder := by
  refine ⟨fun s t es h htrace => ?_, fun s t es h htrace => ?_⟩
  · obtain ⟨bs, hlen, hm, htr⟩ := execWrite_transfers h htrace
    exact ⟨bs.length, hlen, bs, rfl, hm, htr⟩
  · obtain ⟨bs, hlen, hm, last, htr, hlast⟩ := execWtr_transfers h htrace
    exact ⟨bs, last, htr, hlast, hlen, hm⟩

/-! ## The bytes a command may write (20_memory.md R63, R66, R75) -/

theorem execWtr_read_outside {s t : State} {x : Nat} (h : execWtr s = .next t)
    (hx : x < s.ptr ∨ s.ptr + s.len ≤ x) :
    t.mem.read x = s.mem.read x := by
  rcases execWtr_cases h with ⟨-, rfl⟩ | ⟨-, -, o, e, es, bs, -, hlen, rfl⟩
  · rw [rejectArgs_mem]
  · exact read_writeBytes_outside _ _ _ (by omega)

theorem execEncode_read_outside {s t : State} {x : Nat} (h : execEncode s = .next t)
    (h0 : x ≠ s.ptr) (h1 : x ≠ s.ptr + 1) (h30 : x ≠ s.ptr + 30) (h31 : x ≠ s.ptr + 31) :
    t.mem.read x = s.mem.read x := by
  rcases execEncode_cases h with ⟨-, rfl⟩ | ⟨-, -, m, bs, o, e, he, rfl⟩
  · rw [rejectArgs_mem]
  · obtain ⟨c, -, rfl, -⟩ := encodeRecord_eq_some he
    simp [read_write16, h0, h1, h30, h31]

theorem execDecode_read_outside {s t : State} {x : Nat} (h : execDecode s = .next t)
    (hx : x < s.ptr ∨ s.ptr + 32 ≤ x ∨ t.outcome = .channelError ∨ t.outcome = .invalidArgument) :
    t.mem.read x = s.mem.read x := by
  rcases execDecode_cases h with ⟨-, rfl⟩ | ⟨-, -, ⟨e, rfl⟩ | ⟨bs, e, rfl⟩⟩
  · rw [rejectArgs_mem]
  · rfl
  · have stored : x < s.ptr ∨ s.ptr + 32 ≤ x := by
      cases hv : frameValid bs <;> simpa [hv] using hx
    exact read_writeBytes_outside _ _ _ (by simpa using stored)

theorem exec_mem_of_write_or_resync {s t : State} (h : exec .write s = .next t ∨ exec .resync s = .next t) :
    t.mem = s.mem := by
  rcases h with h | h <;>
  · obtain ⟨o, e, es, m, r, rfl, -, hm⟩ := exec_frame h
    exact hm (by simp)

/-- With a null PTR a command stores nothing, and otherwise its bytes lie above address 0. -/
theorem exec_read_zero {i : Instr} {s t : State} (h : exec i s = .next t) : t.mem.read 0 = s.mem.read 0 := by
  by_cases hptr : s.ptr = 0
  · rw [exec_of_ptr_zero hptr] at h
    cases h
    rw [rejectArgs_mem]
  · cases i with
    | write => rw [exec_mem_of_write_or_resync (.inl h)]
    | wtr => exact execWtr_read_outside h (by omega)
    | encode => exact execEncode_read_outside h (by omega) (by omega) (by omega) (by omega)
    | decode => exact execDecode_read_outside h (by omega)
    | resync => rw [exec_mem_of_write_or_resync (.inr h)]

/-- Settles O39: command by command. -/
theorem commandsWriteOnlyTheirBytes : Obligations.CommandsWriteOnlyTheirBytes :=
  ⟨fun _ _ _ h => exec_read_zero h,
    fun _ _ _ h => by rw [exec_mem_of_write_or_resync h],
    fun _ _ _ h hx => execWtr_read_outside h hx,
    fun _ _ _ h h0 h1 h30 h31 => execEncode_read_outside h h0 h1 h30 h31,
    fun _ _ _ h hx => execDecode_read_outside h hx⟩

end Sys2Proof.Machine

namespace Sys2Proof.Machine

/-! ## Two memories that agree on an extent (20_memory.md R67) -/

/-- `m` and `m'` read alike on the `n` addresses from `a` upward. -/
def AgreeOn (a n : Nat) (m m' : Mem) : Prop := ∀ x, a ≤ x → x < a + n → m'.read x = m.read x

namespace AgreeOn

variable {a n : Nat} {m m' : Mem}

theorem write (h : AgreeOn a n m m') (x : Nat) (b : Byte) : AgreeOn a n (m.write x b) (m'.write x b) := by
  intro y hlo hhi
  rw [read_write, read_write, h y hlo hhi]

theorem write16 (h : AgreeOn a n m m') (x : Nat) (w : Half) : AgreeOn a n (m.write16 x w) (m'.write16 x w) :=
  (h.write x _).write (x + 1) _

theorem writeBytes (h : AgreeOn a n m m') (x : Nat) (bs : List Byte) :
    AgreeOn a n (m.writeBytes x bs) (m'.writeBytes x bs) := by
  intro y hlo hhi
  rw [read_writeBytes, read_writeBytes, h y hlo hhi]

theorem read (h : AgreeOn a n m m') {j : Nat} (hj : j < n) : m'.read (a + j) = m.read (a + j) :=
  h (a + j) (by omega) (by omega)

theorem read16 (h : AgreeOn a n m m') {j : Nat} (hj : j + 1 < n) : m'.read16 (a + j) = m.read16 (a + j) := by
  rw [Mem.read16, Mem.read16, Nat.add_assoc, h.read hj, h.read (Nat.lt_of_succ_lt hj)]

theorem holdsBytes (h : AgreeOn a n m m') {bs : List Byte} (hlen : bs.length ≤ n) (hm : HoldsBytes m a bs) :
    HoldsBytes m' a bs :=
  fun j hj => (h.read (Nat.lt_of_lt_of_le hj hlen)).trans (hm j hj)

theorem readFrame (h : AgreeOn a 32 m m') : m'.readFrame a = m.readFrame a := by
  refine Option.ext fun bs => ?_
  have bytes (j : Nat) (hj : j < 32) : m'.read (a + j) = some bs[j] ↔ m.read (a + j) = some bs[j] := by
    rw [h.read hj]
  exact readFrame_eq_some.trans ((forall₂_congr bytes).trans readFrame_eq_some.symm)

theorem sumRecord (h : AgreeOn a 32 m m') {ks : List Nat} (hks : ∀ k ∈ ks, k < 15) (acc : Half) :
    sumRecord m' a ks acc = sumRecord m a ks acc := by
  induction ks generalizing acc with
  | nil => rfl
  | cons k ks ih =>
    have hk : k < 15 := hks k (by simp)
    rw [Machine.sumRecord, Machine.sumRecord, h.read16 (by omega)]
    cases m.read16 (a + 2 * k) with
    | none => rfl
    | some w => exact ih (fun k hk => hks k (by simp [hk])) _

theorem recordTrailer (h : AgreeOn a 32 m m') : recordTrailer m' a = recordTrailer m a := by
  rw [Machine.recordTrailer, Machine.recordTrailer, h.sumRecord fun _ hk => List.mem_range.1 hk]

/-- The transformation of ENCODE reads only the record: it stops alike, or sends the same bytes. -/
theorem encodeRecord (h : AgreeOn a 32 m m') :
    (encodeRecord m a = none ∧ encodeRecord m' a = none) ∨
    ∃ r r' bs, encodeRecord m a = some (r, bs) ∧ encodeRecord m' a = some (r', bs) ∧ AgreeOn a 32 r r' := by
  have header := h.write16 a Config.header
  rw [Machine.encodeRecord, Machine.encodeRecord, header.recordTrailer]
  cases Machine.recordTrailer (m.write16 a Config.header) a with
  | none => exact .inl ⟨rfl, rfl⟩
  | some c =>
    have trailer := header.write16 (a + 30) c
    dsimp only
    rw [trailer.readFrame]
    cases Mem.readFrame _ a with
    | none => exact .inl ⟨rfl, rfl⟩
    | some bs => exact .inr ⟨_, _, bs, rfl, rfl, trailer⟩

/-- The test of a pair reads only the pair. -/
theorem testPair (h : AgreeOn a n m m') {j : Nat} (hj : j + 1 < n) : testPair m' (a + j) = testPair m (a + j) := by
  rw [Machine.testPair, Machine.testPair, Nat.add_assoc, h.read hj, h.read (Nat.lt_of_succ_lt hj)]

end AgreeOn

/-! ## A command over two memories that agree on its extent -/

/-- Two runs end alike: with the same refusal, or in states that agree on everything but MEM and on the `n` bytes from
`a` upward. -/
inductive EndAlike (a n : Nat) : Result → Result → Prop where
  | ends (t : State) (m : Mem) (h : AgreeOn a n t.mem m) : EndAlike a n (.next t) (.next (t.setMem m))
  | refused (q : Refusal) : EndAlike a n (.refused q) (.refused q)

/-- Two runs that end after storing the same bytes at the same place. -/
theorem EndAlike.stored {a n : Nat} {s : State} {m : Mem} (hm : AgreeOn a n s.mem m) (x : Nat) (bs : List Byte)
    (o : OutcomeCode) :
    EndAlike a n (.next ((s.setMem (s.mem.writeBytes x bs)).finish o))
      (.next (((s.setMem m).setMem (m.writeBytes x bs)).finish o)) :=
  .ends ((s.setMem (s.mem.writeBytes x bs)).finish o) (m.writeBytes x bs) (hm.writeBytes x bs)

theorem sendLoop_endAlike {n : Nat} {s : State} {m : Mem} (hidx : s.idx = 0) (hm : AgreeOn s.ptr n s.mem m) :
    EndAlike s.ptr n (sendLoop n s) (sendLoop n (s.setMem m)) := by
  obtain ⟨p, hp⟩ := exists_sendPlan n s.limit s.env
  have hstart : s.ptr + s.idx = s.ptr := by rw [hidx, Nat.add_zero]
  rcases exists_holdsBytes_or_unwritten s.mem s.ptr p.puts with ⟨bs, hlen, hbs⟩ | ⟨j, hj, hnone⟩
  · have hbs' : HoldsBytes m s.ptr bs := hm.holdsBytes (hlen ▸ hp.puts_le) hbs
    rw [← hstart] at hbs hbs'
    rw [hp.ends s bs rfl rfl hlen hbs, hp.ends (s.setMem m) bs rfl rfl hlen hbs']
    exact .ends ((s.heard p.env (p.events bs)).finish p.outcome) m hm
  · have hnone' : m.read (s.ptr + j) = none := (hm.read (Nat.lt_of_lt_of_le hj hp.puts_le)).trans hnone
    rw [← hstart] at hnone hnone'
    rw [hp.refused s rfl rfl ⟨j, hj, hnone⟩, hp.refused (s.setMem m) rfl rfl ⟨j, hj, hnone'⟩]
    exact .refused _

theorem recvLoop_endAlike {a k : Nat} (n : Nat) {s : State} {m : Mem} (hm : AgreeOn a k s.mem m) :
    EndAlike a k (recvLoop n s) (recvLoop n (s.setMem m)) := by
  obtain ⟨o, e, es, bs, -, -, h⟩ := exists_recvRun n s.limit s.fill s.env
  rw [h s rfl rfl rfl, h (s.setMem m) rfl rfl rfl]
  exact .stored (s := s.heard e es) hm (s.ptr + s.idx) bs o

theorem sendRecord_setMem (bs : Frame) (s : State) (m : Mem) :
    sendRecord bs (s.setMem m) = (sendRecord bs s).setMem m := by
  rw [sendRecord, sendRecord, chSend_eq, chSend_eq, setMem_env]
  cases s.env.nextSend.1 <;> rfl

theorem encodeBody_endAlike {s : State} {m : Mem} (hm : AgreeOn s.ptr 32 s.mem m) :
    EndAlike s.ptr 32 (encodeBody s) (encodeBody (s.setMem m)) := by
  rcases hm.encodeRecord with ⟨h, h'⟩ | ⟨r, r', bs, h, h', hr⟩
  · simp only [encodeBody, setMem_mem, setMem_ptr, h, h']
    exact .refused _
  · simp only [encodeBody, setMem_mem, setMem_ptr, h, h', sendRecord_setMem]
    exact .ends ((sendRecord bs s).setMem r) r' hr

theorem decodeBody_endAlike {a k : Nat} {s : State} {m : Mem} (hm : AgreeOn a k s.mem m) :
    EndAlike a k (decodeBody s) (decodeBody (s.setMem m)) := by
  simp only [decodeBody, chRecv_eq, setMem_env]
  generalize s.env.nextRecv = answer
  obtain ⟨a, e⟩ := answer
  cases a with
  | channelError => exact .ends ((s.heard e [.recv .channelError]).finish .channelError) m hm
  | ok bs =>
    exact .stored (s := s.heard e [.recv (.ok bs)]) hm s.ptr bs.toList _

theorem scanLoop_endAlike {n k : Nat} {s : State} {m : Mem} (hn : s.idx + n ≤ k - 1) (hm : AgreeOn s.ptr k s.mem m) :
    EndAlike s.ptr k (scanLoop n s) (scanLoop n (s.setMem m)) := by
  induction n generalizing s with
  | zero => exact .ends ((s.setRes 0).finish .notFound) m hm
  | succ n ih =>
    have hpair : testPair m (s.ptr + s.idx) = testPair s.mem (s.ptr + s.idx) := hm.testPair (by omega)
    simp only [scanLoop, setMem_mem, setMem_ptr, setMem_idx, hpair]
    cases testPair s.mem (s.ptr + s.idx) with
    | unwritten => exact .refused _
    | isHeader => exact .ends ((s.setRes (s.ptr + s.idx)).finish .ok) m hm
    | isNot =>
      have hn' : (s.setIdx (s.idx + 1)).idx + n ≤ k - 1 := by rw [setIdx_idx]; omega
      exact ih hn' hm

theorem commandBody_endAlike (i : Instr) {s : State} {m : Mem} (hm : AgreeOn s.ptr (extentLen i s) s.mem m) :
    EndAlike s.ptr (extentLen i s) (commandBody i s) (commandBody i (s.setMem m)) := by
  cases i with
  | write => exact sendLoop_endAlike (s := s.setIdx 0) rfl hm
  | wtr => exact recvLoop_endAlike s.len (s := s.setIdx 0) hm
  | encode => exact encodeBody_endAlike hm
  | decode => exact decodeBody_endAlike hm
  | resync => exact scanLoop_endAlike (s := s.setIdx 0) (by simp [extentLen]) hm

theorem rejectArgs_setMem (i : Instr) (s : State) (m : Mem) :
    rejectArgs i (s.setMem m) = (rejectArgs i s).setMem m := by
  cases i <;> rfl

/-- The entry of a command reads no byte of MEM. -/
theorem exec_endAlike (i : Instr) {s : State} {m : Mem} (hm : AgreeOn s.ptr (extentLen i s) s.mem m) :
    EndAlike s.ptr (extentLen i s) (exec i s) (exec i (s.setMem m)) := by
  have hargs : argInvalid i (s.setMem m) = argInvalid i s := argInvalid_congr s i _ rfl rfl
  have hlegal : legalExtent i (s.setMem m) = legalExtent i s := legalExtent_congr s i _ rfl rfl rfl
  rw [exec_eq_enter, exec_eq_enter]
  cases ha : argInvalid i s with
  | true =>
    rw [enter_invalid _ ha, enter_invalid _ (hargs.trans ha), rejectArgs_setMem]
    exact .ends (rejectArgs i s) m (by rwa [rejectArgs_mem])
  | false =>
    cases hl : legalExtent i s with
    | true =>
      rw [enter_accepted _ ha hl, enter_accepted _ (hargs.trans ha) (hlegal.trans hl)]
      exact commandBody_endAlike i hm
    | false =>
      rw [enter_illegal _ ha hl, enter_illegal _ (hargs.trans ha) (hlegal.trans hl)]
      exact .refused _

/-- Settles O40: the two runs end alike. -/
theorem commandsReadOnlyTheirExtent : Obligations.CommandsReadOnlyTheirExtent := by
  intro i s m hm
  have alike : EndAlike s.ptr (extentLen i s) (exec i s) (exec i { s with mem := m }) := exec_endAlike i hm
  generalize exec i s = x at alike
  generalize exec i { s with mem := m } = y at alike
  cases alike with
  | refused q => exact ⟨nofun, fun _ h => h⟩
  | ends t m' h =>
    refine ⟨?_, nofun⟩
    rintro _ ⟨⟩
    exact ⟨t.setMem m', rfl, rfl, h⟩

/-! ## A WRITE over a memory with gaps (20_memory.md R66, 40_polling_fsm.md R124) -/

@[simp] theorem putBytes_map_put (bs : List Byte) : putBytes (bs.map .put) = bs := by
  induction bs with
  | nil => rfl
  | cons b bs ih => rw [List.map_cons, putBytes_put, ih]

/-- The bytes put are among the transfers. -/
theorem putBytes_transfers (es : List Event) : putBytes (transfers es) = putBytes es := by
  induction es with
  | nil => rfl
  | cons e es ih =>
    cases e with
    | put b => rw [transfers_put, putBytes_put, putBytes_put, ih]
    | get b => rw [transfers_get, putBytes_get, putBytes_get, ih]
    | txrdy r | txc r | rxrdy r | send bs o | recv a => exact ih

/-- A memory holds the bytes that one filling its gaps holds, where it has no gap. -/
theorem holdsBytes_of_filled {m m' : Mem} {a n : Nat} {bs : List Byte}
    (hfill : ∀ j < n, ∀ b, m.read (a + j) = some b → m'.read (a + j) = some b) (hlen : bs.length ≤ n)
    (hm' : HoldsBytes m' a bs) (hwritten : ∀ j < bs.length, m.read (a + j) ≠ none) : HoldsBytes m a bs := by
  intro j hj
  obtain ⟨b, hb⟩ := Option.ne_none_iff_exists'.1 (hwritten j hj)
  rw [hb, ← hfill j (Nat.lt_of_lt_of_le hj hlen) b hb, hm' j hj]

/-- Settles O58: the plan of the WRITE is the same over both memories. -/
theorem writeReadsOnlyTheBytesItPuts : Obligations.WriteReadsOnlyTheBytesItPuts := by
  intro s t m es hfill h htrace
  change execWrite (s.setMem m) = .next t at h
  rcases enter_eq_next h with ⟨ha, rfl⟩ | ⟨ha, hl, hloop⟩
  · obtain rfl : es = [] := by simpa using htrace
    exact ⟨fun _ => enter_invalid _ ha, by simp⟩
  · obtain ⟨p, hp⟩ := exists_sendPlan s.len s.limit s.env
    rcases exists_holdsBytes_or_unwritten m s.ptr p.puts with ⟨bs, hlen, hbs⟩ | hnone
    · cases (hp.ends ((s.setMem m).setIdx 0) bs rfl rfl hlen hbs).symm.trans hloop
      obtain rfl : p.events bs = es := List.append_cancel_left htrace
      have hput : putBytes (p.events bs) = bs := by
        rw [← putBytes_transfers, hp.transfers bs hlen, putBytes_map_put]
      have accepted : exec .write s = sendLoop s.len (s.setIdx 0) := enter_accepted _ ha hl
      rw [hput, accepted]
      refine ⟨fun hwritten => ?_, fun hnone => ?_⟩
      · have hs : HoldsBytes s.mem s.ptr bs := holdsBytes_of_filled hfill (hlen ▸ hp.puts_le) hbs hwritten
        exact hp.ends (s.setIdx 0) bs rfl rfl hlen hs
      · exact hp.refused (s.setIdx 0) rfl rfl (hlen ▸ hnone)
    · cases (hp.refused ((s.setMem m).setIdx 0) rfl rfl hnone).symm.trans hloop

end Sys2Proof.Machine

namespace Sys2Proof.Machine

/-! ## The opcode map, byte by byte (30_encoding.md R90, R93, R94) -/

theorem oneByte (i : Instr) : Laws.OneByte.Statement i := by
  cases i with
  | write => exact Laws.OneByte.write
  | wtr => exact Laws.OneByte.wtr
  | encode => exact Laws.OneByte.encode
  | decode => exact Laws.OneByte.decode
  | resync => exact Laws.OneByte.resync

@[simp] theorem decode_encode (i : Instr) : decode (encode i) = .ok i := by
  obtain ⟨-, -, -, hdec⟩ := oneByte i
  exact hdec

theorem wellFormed_eq_true (i : Instr) : i.wellFormed = true := by
  obtain ⟨hwf, -⟩ := oneByte i
  exact hwf

/-- A byte that fails each of the decoder's five comparisons is refused by name. -/
theorem decode_eq_error {b : Byte} (h : ∀ i, b ≠ encode i) : decode b = .error (.reservedOpcode b) := by
  have h1 : b ≠ 0x01 := h .write
  have h2 : b ≠ 0x02 := h .wtr
  have h3 : b ≠ 0x03 := h .encode
  have h4 : b ≠ 0x04 := h .decode
  have h5 : b ≠ 0x05 := h .resync
  rw [decode, if_neg h1, if_neg h2, if_neg h3, if_neg h4, if_neg h5]

/-- The opcodes are the numbers 1 to 5. -/
theorem toNat_encode_bounds (i : Instr) : 1 ≤ (encode i).toNat ∧ (encode i).toNat ≤ 5 := by
  cases i <;> decide

/-- The numbers R94 reserves: 0 and 6 upward. -/
theorem decode_reserved {b : Byte} (h : b.toNat = 0 ∨ 6 ≤ b.toNat) : decode b = .error (.reservedOpcode b) := by
  refine decode_eq_error ?_
  rintro i rfl
  obtain ⟨hlo, hhi⟩ := toNat_encode_bounds i
  omega

/-- The table reader is the decoder without its reason for a refusal. -/
theorem decodeTableWord_eq (nbits w : Nat) :
    decodeTableWord nbits w = (decode (opcodeOf (w % 2 ^ nbits))).toOption := by
  unfold decodeTableWord
  cases decode (opcodeOf (w % 2 ^ nbits)) <;> rfl

theorem opcodeOf_toNat (b : Byte) : opcodeOf b.toNat = b :=
  BitVec.eq_of_toNat_eq ((toNat_opcodeOf _).trans (Nat.mod_eq_of_lt b.isLt))

theorem decodeTableWord_toNat (b : Byte) : decodeTableWord 8 b.toNat = (decode b).toOption := by
  rw [decodeTableWord_eq, Nat.mod_eq_of_lt b.isLt, opcodeOf_toNat]

theorem decodeTableWord_encode (i : Instr) : decodeTableWord 8 (encode i).toNat = some i := by
  rw [decodeTableWord_toNat, decode_encode]
  rfl

/-- Settles O2: `encode` and the accepting half of `decode` are inverse, and `decode` refuses what is left. -/
theorem decodeInvertsEncode : Obligations.DecodeInvertsEncode := by
  refine ⟨fun i => ⟨wellFormed_eq_true i, decode_encode i, rfl, decodeTableWord_encode i⟩, ?_, ?_⟩
  · exact fun b i hdec => eq_encode_of_decode hdec
  · exact fun b hne => decode_eq_error hne

/-- Settles O1: each word is the encoding of a command or a reserved number. -/
theorem opcodeWordsDecode : Obligations.OpcodeWordsDecode := by
  refine ⟨decode_encode .write, decode_encode .wtr, decode_encode .encode, decode_encode .decode,
    decode_encode .resync, ?_, ?_, ?_, decodeTableWord_encode .write, decodeTableWord_encode .resync, ?_⟩
  · exact decode_reserved (.inl rfl)
  · exact decode_reserved (.inr (by decide))
  · exact decode_reserved (.inr (by decide))
  · have hword : decodeTableWord 8 0x00 = (decode 0x00#8).toOption := decodeTableWord_toNat 0x00#8
    rw [hword, decode_reserved (.inl rfl)]
    rfl

/-! ## What a write to CMD runs (30_encoding.md R93, R94) -/

/-- The command runs whose opcode is the low byte of the value written. -/
theorem command_of_opcode {v : Nat} {i : Instr} (h : v % 256 = (encode i).toNat) (s : State) :
    command v s = exec i s := by
  have hop : opcodeOf v = encode i := BitVec.eq_of_toNat_eq ((toNat_opcodeOf v).trans h)
  exact command_of_decode (hop ▸ decode_encode i) s

theorem command_reserved {v : Nat} (h : v % 256 = 0 ∨ 6 ≤ v % 256) (s : State) :
    command v s = .next (s.finish .illegalCommand) := by
  rw [← toNat_opcodeOf] at h
  rw [command, decode_reserved h]

/-- Settles O3: one clause per command, and the reserved opcodes. -/
theorem cmdWriteRunsTheOpcodeMap : Obligations.CmdWriteRunsTheOpcodeMap := by
  intro v s
  exact ⟨fun h => command_of_opcode (i := .write) h s, fun h => command_of_opcode (i := .wtr) h s,
    fun h => command_of_opcode (i := .encode) h s, fun h => command_of_opcode (i := .decode) h s,
    fun h => command_of_opcode (i := .resync) h s, fun h => command_reserved h s⟩

/-- Settles O4: the step is `finish`, which writes OUTCOME and idles the block. -/
theorem reservedOpcodeOnlyReportsIllegalCommand : Obligations.ReservedOpcodeOnlyReportsIllegalCommand := by
  intro s v rest hscript hv
  have hstep : step s = .next (State.finish { s with script := rest } .illegalCommand) :=
    (step_cons hscript).trans (command_reserved hv _)
  exact ⟨_, hstep, rfl, rfl, rfl, rfl, rfl, rfl, rfl, rfl, rfl, rfl, rfl, rfl, rfl, rfl, rfl, rfl⟩

/-! ## HOST's POKE, PEEK and pseudo-instructions (30_encoding.md R98, R99) -/

theorem hostPoke_of_memory {a : Nat} {bs : List Byte} {s : State} (h : allMemory s.cfg a bs.length = true) :
    hostPoke a bs s = .next (s.setMem (s.mem.writeBytes a bs)) := if_pos h

theorem hostPeek_of_memory {a n : Nat} {s : State} (h : allMemory s.cfg a n = true) :
    hostPeek a n s = .next { s with seen := s.seen ++ [.bytes a (s.mem.readBytes a n)] } := if_pos h

/-- Bytes that stand in MEM are what a read of their place answers. -/
theorem readBytes_of_holdsBytes {m : Mem} {a : Nat} {bs : List Byte} (h : HoldsBytes m a bs) :
    m.readBytes a bs.length = bs.map some := by
  refine List.ext_getElem (by simp [Mem.readBytes]) fun j hj _ => ?_
  have hlen : j < bs.length := by simpa [Mem.readBytes] using hj
  simpa [Mem.readBytes] using h j hlen

/-- Settles O10: POKE is `writeBytes`, and PEEK reads back the bytes it made MEM hold. -/
theorem pokeThenPeekReturnsTheBytes : Obligations.PokeThenPeekReturnsTheBytes := by
  intro s a bs hall
  have hholds : HoldsBytes (s.mem.writeBytes a bs) a bs := holdsBytes_writeBytes s.mem a bs
  have hall' : allMemory (s.setMem (s.mem.writeBytes a bs)).cfg a bs.length = true := hall
  refine ⟨_, _, hostPoke_of_memory hall, rfl, hholds, fun x => read_writeBytes_outside s.mem a bs,
    hostPeek_of_memory hall', ?_⟩
  rw [setMem_mem, readBytes_of_holdsBytes hholds]

/-- Settles O11: `expand` and `lineAction` compute without looking at an operand's value. -/
theorem pseudoInstructionsExpandToBusActions : Obligations.PseudoInstructionsExpandToBusActions := by
  intro fill buf len
  exact ⟨rfl, rfl, rfl, rfl, rfl, rfl⟩

end Sys2Proof.Machine

namespace Sys2Proof.Machine

/-! ## The bounded poll, test by test and under known answers (40_polling_fsm.md R120 to R123) -/

/-- A wait that polls and is answered true. -/
theorem pollLoop_true {p : Pred} {n : Nat} {s t : State} (h : ask p s = (true, t)) :
    pollLoop p (n + 1) s = (.ready, t) := by
  rw [pollLoop, h]

/-- A wait that polls and is answered false counts and goes round again. -/
theorem pollLoop_false {p : Pred} {n : Nat} {s t : State} (h : ask p s = (false, t)) :
    pollLoop p (n + 1) s = pollLoop p n (t.setCnt (t.cnt + 1)) := by
  rw [pollLoop, h]

/-- A poll moves the environment on and records the answer. -/
theorem eq_heard_of_ask {p : Pred} {s t : State} {r : Bool} (h : ask p s = (r, t)) :
    ∃ e, t = s.heard e [p.event r] := by
  obtain ⟨r', e, ha⟩ := ask_cases p s
  cases ha.symm.trans h
  exact ⟨e, rfl⟩

/-- Settles O16: the polls left decide whether the loop tests or asks. -/
theorem pollFollowsItsLoop : Obligations.PollFollowsItsLoop := by
  intro p s
  refine ⟨rfl, fun hc => ?_, fun t hc h => ?_, fun t hc h => ?_⟩
  · rw [hc, Nat.sub_self, pollLoop_zero]
  · obtain ⟨n, hn⟩ := Nat.exists_eq_add_one.2 (Nat.sub_pos_of_lt hc)
    rw [hn, pollLoop_true h]
  · obtain ⟨n, hn⟩ := Nat.exists_eq_add_one.2 (Nat.sub_pos_of_lt hc)
    rw [hn, pollLoop_false h]
    obtain ⟨e, rfl⟩ := eq_heard_of_ask h
    have hleft : s.limit - (s.cnt + 1) = n := by omega
    rw [heard_limit, heard_cnt, hleft]

theorem withAnswers_answers (e : Env) (p : Pred) : e.withAnswers p (e.answers p) = e := by
  cases p <;> rfl

/-- The loop over an environment whose first true answer is numbered `k + 1`. -/
theorem pollLoop_of_firstTrue {p : Pred} {n k : Nat} {s : State} {later : List Bool} (hk : k < n)
    (h : s.env.answers p = List.replicate k false ++ true :: later) :
    pollLoop p n s = (.ready, (s.heard (s.env.withAnswers p later) (readyPolls p k)).setCnt (s.cnt + k)) := by
  induction k generalizing n s with
  | zero =>
    obtain ⟨n, rfl⟩ := Nat.exists_eq_add_one.2 hk
    exact pollLoop_true (ask_of_answers h)
  | succ k ih =>
    obtain ⟨n, rfl⟩ := Nat.exists_eq_add_one.2 (Nat.zero_lt_of_lt hk)
    rw [List.replicate_succ, List.cons_append] at h
    rw [pollLoop_false (ask_of_answers h), ih (Nat.lt_of_succ_lt_succ hk) (by simp)]
    simp [readyPolls, List.replicate_succ, Nat.add_assoc, Nat.add_comm 1]

/-- The loop over an environment that answers false as often as it polls. -/
theorem pollLoop_of_allFalse {p : Pred} {n : Nat} {s : State} {later : List Bool}
    (h : s.env.answers p = List.replicate n false ++ later) :
    pollLoop p n s = (.timeout, (s.heard (s.env.withAnswers p later) (timeoutPolls p n)).setCnt (s.cnt + n)) := by
  induction n generalizing s with
  | zero =>
    obtain rfl : s.env.answers p = later := h
    simp [withAnswers_answers]
    rfl
  | succ n ih =>
    rw [List.replicate_succ, List.cons_append] at h
    rw [pollLoop_false (ask_of_answers h), ih (by simp)]
    simp [timeoutPolls, List.replicate_succ, Nat.add_assoc, Nat.add_comm 1]

theorem poll_of_firstTrue {p : Pred} {k : Nat} {s : State} {later : List Bool} (hk : k < s.limit)
    (h : s.env.answers p = List.replicate k false ++ true :: later) :
    poll p s = (.ready, (s.heard (s.env.withAnswers p later) (readyPolls p k)).setCnt k) := by
  rw [poll, pollLoop_of_firstTrue (s := s.setCnt 0) hk h]
  simp

theorem poll_of_allFalse {p : Pred} {s : State} {later : List Bool}
    (h : s.env.answers p = List.replicate s.limit false ++ later) :
    poll p s = (.timeout, (s.heard (s.env.withAnswers p later) (timeoutPolls p s.limit)).setCnt s.limit) := by
  rw [poll, pollLoop_of_allFalse (s := s.setCnt 0) h]
  simp

/-- A wait whose first answer is true. -/
theorem poll_of_true {p : Pred} {s : State} {later : List Bool} (hlimit : 0 < s.limit)
    (h : s.env.answers p = true :: later) :
    poll p s = (.ready, (s.heard (s.env.withAnswers p later) [p.event true]).setCnt 0) :=
  poll_of_firstTrue (k := 0) hlimit h

/-- With no budget there is no poll (40_polling_fsm.md R122). -/
theorem poll_of_limit_zero {s : State} (h : s.limit = 0) (p : Pred) : poll p s = (.timeout, s.setCnt 0) := by
  rw [poll, h, pollLoop_zero]

/-- Settles O17: from the form of a wait whose first true answer is known. -/
theorem pollIsReadyAtTheFirstTrueAnswer : Obligations.PollIsReadyAtTheFirstTrueAnswer := by
  intro p s k later hk h
  exact ⟨_, poll_of_firstTrue hk h, rfl, rfl, by simp [readyPolls], rfl⟩

/-- Settles O18: from the form of a wait that is never answered true. -/
theorem pollTimesOutAfterExactlyLimitPolls : Obligations.PollTimesOutAfterExactlyLimitPolls := by
  intro p s later h
  exact ⟨_, poll_of_allFalse h, rfl, rfl, rfl, rfl⟩

/-! ## WRITE and WTR with valid arguments, over a known environment (40_polling_fsm.md R122, R125, R127) -/

theorem execWrite_accepted {s : State} (h : BufferAccepted s) :
    exec .write s = sendLoop s.len (s.setIdx 0) :=
  enter_buffer h (by decide) (by decide) _

theorem execWtr_accepted {s : State} (h : BufferAccepted s) :
    exec .wtr s = recvLoop s.len (s.setIdx 0) :=
  enter_buffer h (by decide) (by decide) _

/-- A WRITE whose first wait is not answered. -/
theorem execWrite_notReady {s t : State} (h : BufferAccepted s) (hp : poll .txReady (s.setIdx 0) = (.timeout, t)) :
    exec .write s = .next (t.finish .timeout) := by
  obtain ⟨n, hn⟩ := Nat.exists_eq_succ_of_ne_zero h.len
  rw [execWrite_accepted h, hn, sendLoop_notReady hp]

/-- A WTR whose first wait is not answered. -/
theorem execWtr_notReady {s t : State} (h : BufferAccepted s)
    (hp : poll .rxReady (putByte s.fill (s.setIdx 0)) = (.timeout, t)) :
    exec .wtr s = .next (t.finish .timeout) := by
  obtain ⟨n, hn⟩ := Nat.exists_eq_succ_of_ne_zero h.len
  rw [execWtr_accepted h, hn, recvLoop_notReady hp]

/-- Settles O19: the first wait of either command times out at once. -/
theorem zeroCeilingTimesOutAtOnce : Obligations.ZeroCeilingTimesOutAtOnce := by
  intro s hlimit
  refine ⟨poll_of_limit_zero hlimit, fun h => ⟨?_, ?_⟩⟩
  · have hpoll := poll_of_limit_zero (s := s.setIdx 0) hlimit .txReady
    rw [execWrite_notReady h hpoll, finish_setCnt, finish_setIdx]
  · have hpoll := poll_of_limit_zero (s := putByte s.fill (s.setIdx 0)) hlimit .rxReady
    exact ⟨_, execWtr_notReady h hpoll, rfl, rfl, rfl, rfl⟩

/-- Settles O24: the first wait uses up the LIMIT false answers. -/
theorem writeTimesOutWhenNeverReady : Obligations.WriteTimesOutWhenNeverReady := by
  intro s later h hrdy
  exact execWrite_notReady h (poll_of_allFalse (s := s.setIdx 0) hrdy)

/-- Settles O27: the first wait, after one put, uses up the LIMIT false answers. -/
theorem wtrTimesOutWhenNeverReady : Obligations.WtrTimesOutWhenNeverReady := by
  intro s later h hrdy
  have hpoll := poll_of_allFalse (p := .rxReady) (s := putByte s.fill (s.setIdx 0)) hrdy
  rw [execWtr_notReady h hpoll, putByte_eq_heard, heard_heard]
  rfl

/-- The events of a WRITE of `bs` over a transport that is always ready. -/
def promptSend (bs : List Byte) : List Event := bs.flatMap fun b => [.txrdy true, .put b, .txc true]

/-- One byte of WRITE when both its waits are answered at once. -/
theorem sendLoop_promptByte {n : Nat} {b : Byte} {s : State} {rdy done : List Bool} (hlimit : 0 < s.limit)
    (hb : s.mem.read (s.ptr + s.idx) = some b) (hrdy : s.env.txReady = true :: rdy)
    (hdone : s.env.txComplete = true :: done) :
    sendLoop (n + 1) s = sendLoop n (((s.heard { s.env with txReady := rdy, txComplete := done }
      [.txrdy true, .put b, .txc true]).setCnt 0).setIdx (s.idx + 1)) := by
  rw [sendLoop_sent (poll_of_true hlimit hrdy) hb (poll_of_true hlimit hdone)]
  simp [putByte_eq_heard]
  rfl

/-- The loop of WRITE over a transport that is always ready, by induction on the bytes still to send. -/
theorem sendLoop_prompt {bs : List Byte} {s : State} {rdy done : List Bool} (hlimit : 0 < s.limit)
    (hm : HoldsBytes s.mem (s.ptr + s.idx) bs) (hrdy : s.env.txReady = List.replicate bs.length true ++ rdy)
    (hdone : s.env.txComplete = List.replicate bs.length true ++ done) :
    sendLoop bs.length s =
      .next ((s.heard { s.env with txReady := rdy, txComplete := done } (promptSend bs)).finish .ok) := by
  induction bs generalizing s with
  | nil =>
    obtain rfl : s.env.txReady = rdy := hrdy
    obtain rfl : s.env.txComplete = done := hdone
    have silent : s.heard s.env [] = s := heard_nil s
    exact congrArg (fun t : State => (.next (t.finish .ok) : Result)) silent.symm
  | cons b bs ih =>
    obtain ⟨hb, hm⟩ := holdsBytes_cons.1 hm
    rw [List.length_cons, sendLoop_promptByte hlimit hb hrdy hdone]
    refine Eq.trans (ih hlimit hm rfl rfl) ?_
    simp [promptSend]

/-- Settles O23: the loop from the start of the buffer. -/
theorem writeSendsTheWholeBuffer : Obligations.WriteSendsTheWholeBuffer := by
  intro s bs rdy done h hlimit hlen hm hrdy hdone
  rw [← hlen] at hrdy hdone
  have hloop := sendLoop_prompt (s := s.setIdx 0) hlimit hm hrdy hdone
  rw [hlen] at hloop
  exact (execWrite_accepted h).trans hloop

/-- The events of a WTR that receives `bs` from a receiver that is always ready. -/
def promptReceive (fill : Byte) (bs : List Byte) : List Event :=
  bs.flatMap fun b => [.put fill, .rxrdy true, .get b]

/-- One byte of WTR when its wait is answered at once. -/
theorem recvLoop_promptByte {n : Nat} {b : Byte} {s : State} {rdy : List Bool} {more : List Byte}
    (hlimit : 0 < s.limit) (hrdy : s.env.rxReady = true :: rdy) (hget : s.env.getByte = b :: more) :
    recvLoop (n + 1) s = recvLoop n ((((s.heard { s.env with rxReady := rdy, getByte := more }
      [.put s.fill, .rxrdy true, .get b]).setMem (s.mem.write (s.ptr + s.idx) b)).setCnt 0).setIdx (s.idx + 1)) := by
  have ready := poll_of_true (p := .rxReady) (s := putByte s.fill s) hlimit hrdy
  have got : (s.env.withAnswers .rxReady rdy).nextByte = (b, { s.env with rxReady := rdy, getByte := more }) := by
    simp only [Env.nextByte, Env.withAnswers, hget]
  rw [recvLoop_received ready]
  simp [getByte_eq, got, putByte_eq_heard]
  rfl

/-- The loop of WTR over a receiver that is always ready, by induction on the bytes still to receive. -/
theorem recvLoop_prompt {bs more : List Byte} {s : State} {rdy : List Bool} (hlimit : 0 < s.limit)
    (hrdy : s.env.rxReady = List.replicate bs.length true ++ rdy) (hget : s.env.getByte = bs ++ more) :
    recvLoop bs.length s =
      .next (((s.heard { s.env with rxReady := rdy, getByte := more } (promptReceive s.fill bs)).setMem
        (s.mem.writeBytes (s.ptr + s.idx) bs)).finish .ok) := by
  induction bs generalizing s with
  | nil =>
    obtain rfl : s.env.rxReady = rdy := hrdy
    obtain rfl : s.env.getByte = more := hget
    have silent : s.heard s.env [] = s := heard_nil s
    exact congrArg (fun t : State => (.next (t.finish .ok) : Result)) silent.symm
  | cons b bs ih =>
    rw [List.length_cons, recvLoop_promptByte hlimit hrdy hget]
    refine Eq.trans (ih hlimit rfl rfl) ?_
    simp [promptReceive, Mem.writeBytes, Nat.add_assoc]

/-- Settles O26: the loop from the start of the buffer, and what `writeBytes` stores. -/
theorem wtrReceivesTheWholeBuffer : Obligations.WtrReceivesTheWholeBuffer := by
  intro s bs rdy more h hlimit hlen hrdy hget
  rw [← hlen] at hrdy
  refine ⟨s.mem.writeBytes s.ptr bs, ?_, holdsBytes_writeBytes _ _ _, fun x hx => ?_⟩
  · have hloop := recvLoop_prompt (s := s.setIdx 0) hlimit hrdy hget
    rw [hlen] at hloop
    exact (execWtr_accepted h).trans hloop
  · exact read_writeBytes_outside _ _ _ (hlen ▸ hx)

end Sys2Proof.Machine

namespace Sys2Proof.Machine

/-! ## The events of a WRITE (40_polling_fsm.md R124, R125) -/

/-- The events of the loop of WRITE under the ceiling `limit`, with `n` bytes still to send: the bytes it puts and how
it ends, whatever the transport answers. -/
inductive WriteTrace (limit : Nat) : Nat → List Byte → OutcomeCode → List Event → Prop where
  | done : WriteTrace limit 0 [] .ok []
  | notReady (n : Nat) : WriteTrace limit (n + 1) [] .timeout (timeoutPolls .txReady limit)
  | notComplete {k : Nat} (hk : k < limit) (n : Nat) (b : Byte) :
      WriteTrace limit (n + 1) [b] .timeout (readyPolls .txReady k ++ .put b :: timeoutPolls .txComplete limit)
  | sent {k k' n : Nat} {bs : List Byte} {o : OutcomeCode} {es : List Event} (hk : k < limit) (hk' : k' < limit)
      (b : Byte) (rest : WriteTrace limit n bs o es) :
      WriteTrace limit (n + 1) (b :: bs) o (readyPolls .txReady k ++ .put b :: (readyPolls .txComplete k' ++ es))

namespace WriteTrace

variable {limit n : Nat} {bs : List Byte} {o : OutcomeCode} {es : List Event}

theorem outcome (h : WriteTrace limit n bs o es) : o = .ok ∨ o = .timeout := by
  induction h with
  | done => exact .inl rfl
  | notReady | notComplete => exact .inr rfl
  | sent _ _ _ _ ih => exact ih

theorem length_le (h : WriteTrace limit n bs o es) : bs.length ≤ n := by
  induction h with
  | done => exact le_rfl
  | notReady | notComplete => simp
  | sent _ _ _ _ ih => simpa using ih

theorem length_of_ok (h : WriteTrace limit n bs o es) (ho : o = .ok) : bs.length = n := by
  induction h with
  | done => rfl
  | notReady | notComplete => cases ho
  | sent _ _ _ _ ih => simpa using ih ho

theorem putBytes_eq (h : WriteTrace limit n bs o es) : putBytes es = bs := by
  induction h with
  | done => rfl
  | notReady | notComplete => simp
  | sent _ _ _ _ ih => simp [ih]

theorem gotBytes_eq (h : WriteTrace limit n bs o es) : gotBytes es = [] := by
  induction h with
  | done => rfl
  | notReady | notComplete => simp
  | sent _ _ _ _ ih => simp [ih]

/-- Two waits per byte, each of at most `limit` polls. -/
theorem pollCount_le (h : WriteTrace limit n bs o es) : pollCount es ≤ n * (2 * limit) := by
  induction h with
  | done => exact Nat.zero_le _
  | notReady => simp [Nat.succ_mul]; omega
  | notComplete => simp [Nat.succ_mul]; omega
  | @sent k k' n bs o es _ _ b _ ih =>
    have polls : pollCount (readyPolls .txReady k ++ .put b :: (readyPolls .txComplete k' ++ es)) =
        k + 1 + (k' + 1 + pollCount es) := by simp; omega
    rw [polls, Nat.succ_mul]
    omega

/-- A WRITE asks `TxReady` and `TxComplete` and puts; it calls nothing else. -/
theorem uses (h : WriteTrace limit n bs o es) :
    ∀ e ∈ es, (∃ b, e = .txrdy b) ∨ (∃ b, e = .put b) ∨ ∃ b, e = .txc b := by
  induction h with
  | done => simp
  | notReady => simp [Pred.event]
  | notComplete => simp [Pred.event, or_imp, forall_and]
  | sent _ _ _ _ ih => simpa [Pred.event, or_imp, forall_and] using ih

end WriteTrace

/-- What the loop of WRITE can do with its next byte. -/
theorem sendLoop_succ_cases (n : Nat) (s : State) :
    (∃ e, sendLoop (n + 1) s = .next ((s.heard e (timeoutPolls .txReady s.limit)).finish .timeout)) ∨
    sendLoop (n + 1) s = .refused .unwrittenByte ∨
    (∃ b, s.mem.read (s.ptr + s.idx) = some b ∧ ∃ k < s.limit,
      (∃ e, sendLoop (n + 1) s = .next ((s.heard e
        (readyPolls .txReady k ++ .put b :: timeoutPolls .txComplete s.limit)).finish .timeout)) ∨
      ∃ e, ∃ k' < s.limit, sendLoop (n + 1) s = sendLoop n (((s.heard e
        (readyPolls .txReady k ++ .put b :: readyPolls .txComplete k')).setCnt k').setIdx (s.idx + 1))) := by
  rcases poll_cases .txReady s with ⟨k, e1, hk, hrdy⟩ | ⟨e1, hrdy⟩
  · cases hb : s.mem.read (s.ptr + s.idx) with
    | none => exact .inr (.inl (sendLoop_unwritten hrdy hb))
    | some b =>
      refine .inr (.inr ⟨b, rfl, k, hk, ?_⟩)
      rcases poll_cases .txComplete (putByte b ((s.heard e1 (readyPolls .txReady k)).setCnt k)) with
        ⟨k', e2, hk', hdone⟩ | ⟨e2, hdone⟩
      · refine .inr ⟨e2, k', hk', ?_⟩
        rw [sendLoop_sent hrdy hb hdone]
        simp [putByte_eq_heard]
      · refine .inl ⟨e2, ?_⟩
        rw [sendLoop_notComplete hrdy hb hdone]
        simp [putByte_eq_heard]
  · exact .inl ⟨e1, by rw [sendLoop_notReady hrdy, finish_setCnt]⟩

/-- The loop of WRITE, when it comes to read no unwritten byte, has put bytes that stand in the buffer. -/
theorem sendLoop_trace {n : Nat} {s t : State} (h : sendLoop n s = .next t) :
    ∃ bs o e es, WriteTrace s.limit n bs o es ∧ HoldsBytes s.mem (s.ptr + s.idx) bs ∧ t = (s.heard e es).finish o := by
  induction n generalizing s with
  | zero => cases h; exact ⟨[], .ok, s.env, [], .done, holdsBytes_nil _ _, by rw [heard_nil]⟩
  | succ n ih =>
    rcases sendLoop_succ_cases n s with
      ⟨e, hs⟩ | hs | ⟨b, hb, k, hk, ⟨e, hs⟩ | ⟨e, k', hk', hs⟩⟩ <;> rw [hs] at h
    · cases h
      exact ⟨[], .timeout, e, _, .notReady n, holdsBytes_nil _ _, rfl⟩
    · cases h
    · cases h
      exact ⟨[b], .timeout, e, _, .notComplete hk n b, holdsBytes_cons.2 ⟨hb, holdsBytes_nil _ _⟩, rfl⟩
    · obtain ⟨bs, o, e', es, trace, hm, rfl⟩ := ih h
      exact ⟨b :: bs, o, e', _, .sent hk hk' b trace, holdsBytes_cons.2 ⟨hb, hm⟩, by simp⟩

/-- Over a written buffer the loop of WRITE ends. -/
theorem sendLoop_ends {bs : List Byte} {s : State} (hm : HoldsBytes s.mem (s.ptr + s.idx) bs) :
    ∃ t, sendLoop bs.length s = .next t := by
  obtain ⟨p, hp⟩ := exists_sendPlan bs.length s.limit s.env
  have hlen : (bs.take p.puts).length = p.puts := by simpa using hp.puts_le
  refine ⟨_, hp.ends s (bs.take p.puts) rfl rfl hlen fun j hj => ?_⟩
  rw [List.getElem_take]
  exact hm j (by simp at hj; omega)

/-- Of two sequences of bytes at one place, the shorter is an initial part of the longer. -/
theorem isPrefix_of_holdsBytes {m : Mem} {a : Nat} {bs cs : List Byte} (hb : HoldsBytes m a bs)
    (hc : HoldsBytes m a cs) (hlen : bs.length ≤ cs.length) : bs <+: cs := by
  refine List.prefix_iff_getElem.2 ⟨hlen, fun j hj => Option.some.inj ?_⟩
  rw [← hb j hj, ← hc j (Nat.lt_of_lt_of_le hj hlen)]

/-- Settles O25: from the trace of a WRITE, whose bytes and the buffer's stand at the same place. -/
theorem writeEndsHavingPutAnInitialPart : Obligations.WriteEndsHavingPutAnInitialPart := by
  intro s bs h hlen hm
  obtain ⟨t, ht⟩ := sendLoop_ends (s := s.setIdx 0) hm
  rw [hlen] at ht
  obtain ⟨put, o, e, es, trace, hput, rfl⟩ := sendLoop_trace ht
  have initial : put <+: bs := isPrefix_of_holdsBytes hput hm (hlen ▸ trace.length_le)
  refine ⟨o, e, es, (execWrite_accepted h).trans ht, trace.outcome, ?_, fun ho => ?_, trace.gotBytes_eq, ?_⟩
  · rwa [trace.putBytes_eq]
  · rw [trace.putBytes_eq]
    exact initial.eq_of_length ((trace.length_of_ok ho).trans hlen.symm)
  · calc pollCount es ≤ s.len * (2 * s.limit) := trace.pollCount_le
      _ = 2 * s.len * s.limit := by ring

/-! ## The events of a WTR (40_polling_fsm.md R126, R127) -/

/-- The events of the loop of WTR under the ceiling `limit`, with `n` bytes still to receive: the bytes it receives
and how it ends, whatever the environment answers. -/
inductive WtrTrace (fill : Byte) (limit : Nat) : Nat → List Byte → OutcomeCode → List Event → Prop where
  | done : WtrTrace fill limit 0 [] .ok []
  | notReady (n : Nat) : WtrTrace fill limit (n + 1) [] .timeout (.put fill :: timeoutPolls .rxReady limit)
  | received {k n : Nat} {bs : List Byte} {o : OutcomeCode} {es : List Event} (hk : k < limit) (b : Byte)
      (rest : WtrTrace fill limit n bs o es) :
      WtrTrace fill limit (n + 1) (b :: bs) o (.put fill :: (readyPolls .rxReady k ++ .get b :: es))

namespace WtrTrace

variable {fill : Byte} {limit n : Nat} {bs : List Byte} {o : OutcomeCode} {es : List Event}

theorem outcome (h : WtrTrace fill limit n bs o es) : o = .ok ∨ o = .timeout := by
  induction h with
  | done => exact .inl rfl
  | notReady => exact .inr rfl
  | received _ _ _ ih => exact ih

theorem length_le (h : WtrTrace fill limit n bs o es) : bs.length ≤ n := by
  induction h with
  | done => exact le_rfl
  | notReady => simp
  | received _ _ _ ih => simpa using ih

theorem ok_iff_length_eq (h : WtrTrace fill limit n bs o es) : o = .ok ↔ bs.length = n := by
  induction h with
  | done => simp
  | notReady => simp
  | received _ _ _ ih => simpa using ih

theorem gotBytes_eq (h : WtrTrace fill limit n bs o es) : gotBytes es = bs := by
  induction h with
  | done => rfl
  | notReady => simp
  | received _ _ _ ih => simp [ih]

/-- One put per byte received, and one more for the byte that did not come. -/
theorem putBytes_eq (h : WtrTrace fill limit n bs o es) :
    putBytes es = List.replicate (bs.length + if o = .ok then 0 else 1) fill := by
  induction h with
  | done => rfl
  | notReady => simp
  | received _ _ _ ih => simp [ih, Nat.add_right_comm _ 1, List.replicate_succ]

/-- One wait per byte, of at most `limit` polls. -/
theorem pollCount_le (h : WtrTrace fill limit n bs o es) : pollCount es ≤ n * limit := by
  induction h with
  | done => exact Nat.zero_le _
  | notReady => simp [Nat.succ_mul]
  | received _ _ _ ih => simp [Nat.succ_mul]; omega

/-- A WTR puts FILL, asks `RxReady` and gets; it calls nothing else. -/
theorem uses (h : WtrTrace fill limit n bs o es) :
    ∀ e ∈ es, e = .put fill ∨ (∃ b, e = .rxrdy b) ∨ ∃ b, e = .get b := by
  induction h with
  | done => simp
  | notReady => simp [Pred.event]
  | received _ _ _ ih => simpa [Pred.event, or_imp, forall_and] using ih

end WtrTrace

/-- What the loop of WTR can do with its next byte. -/
theorem recvLoop_succ_cases (n : Nat) (s : State) :
    (∃ e, recvLoop (n + 1) s =
      .next ((s.heard e (.put s.fill :: timeoutPolls .rxReady s.limit)).finish .timeout)) ∨
    ∃ b e, ∃ k < s.limit, recvLoop (n + 1) s =
      recvLoop n ((((s.heard e (.put s.fill :: (readyPolls .rxReady k ++ [.get b]))).setMem
        (s.mem.write (s.ptr + s.idx) b)).setCnt k).setIdx (s.idx + 1)) := by
  rcases poll_cases .rxReady (putByte s.fill s) with ⟨k, e1, hk, hrdy⟩ | ⟨e1, hrdy⟩
  · obtain ⟨b, e2, hget⟩ := getByte_cases (((putByte s.fill s).heard e1 (readyPolls .rxReady k)).setCnt k)
    refine .inr ⟨b, e2, k, hk, ?_⟩
    rw [recvLoop_received hrdy, hget]
    simp [putByte_eq_heard]
  · refine .inl ⟨e1, ?_⟩
    rw [recvLoop_notReady hrdy]
    simp [putByte_eq_heard]

/-- The loop of WTR always ends, and stores what it receives from PTR + IDX upward. -/
theorem recvLoop_trace (n : Nat) (s : State) :
    ∃ bs o e es, WtrTrace s.fill s.limit n bs o es ∧
      recvLoop n s = .next (((s.heard e es).setMem (s.mem.writeBytes (s.ptr + s.idx) bs)).finish o) := by
  induction n generalizing s with
  | zero =>
    refine ⟨[], .ok, s.env, [], .done, ?_⟩
    rw [heard_nil]
    rfl
  | succ n ih =>
    rcases recvLoop_succ_cases n s with ⟨e, hs⟩ | ⟨b, e, k, hk, hs⟩
    · exact ⟨[], .timeout, e, _, .notReady n, hs⟩
    · obtain ⟨bs, o, e', es, trace, hloop⟩ := ih ((((s.heard e (.put s.fill ::
        (readyPolls .rxReady k ++ [.get b]))).setMem (s.mem.write (s.ptr + s.idx) b)).setCnt k).setIdx (s.idx + 1))
      refine ⟨b :: bs, o, e', _, .received hk b trace, hs.trans (hloop.trans ?_)⟩
      simp [Mem.writeBytes, Nat.add_assoc]

/-- Settles O28: from the trace of a WTR. -/
theorem wtrEndsHavingStoredWhatItReceived : Obligations.WtrEndsHavingStoredWhatItReceived := by
  intro s h
  obtain ⟨bs, o, e, es, trace, hloop⟩ := recvLoop_trace s.len (s.setIdx 0)
  refine ⟨o, e, es, s.mem.writeBytes s.ptr bs, (execWtr_accepted h).trans hloop, trace.outcome, ?_⟩
  rw [trace.gotBytes_eq]
  exact ⟨trace.length_le, trace.ok_iff_length_eq, holdsBytes_writeBytes _ _ _,
    fun x hx => read_writeBytes_outside _ _ _ hx, trace.putBytes_eq, trace.pollCount_le⟩

/-! ## The environment calls of each command (00_scope.md R10) -/

theorem execWrite_uses {s t : State} (h : exec .write s = .next t) :
    ∃ es, t.trace = s.trace ++ es ∧ ∀ e ∈ es, (∃ b, e = .txrdy b) ∨ (∃ b, e = .put b) ∨ ∃ b, e = .txc b := by
  rcases enter_eq_next h with ⟨-, rfl⟩ | ⟨-, -, h⟩
  · exact ⟨[], by simp, by simp⟩
  · obtain ⟨bs, o, e, es, trace, -, rfl⟩ := sendLoop_trace h
    exact ⟨es, rfl, trace.uses⟩

theorem execWtr_uses {s t : State} (h : exec .wtr s = .next t) :
    ∃ es, t.trace = s.trace ++ es ∧ ∀ e ∈ es, e = .put s.fill ∨ (∃ b, e = .rxrdy b) ∨ ∃ b, e = .get b := by
  rcases enter_eq_next h with ⟨-, rfl⟩ | ⟨-, -, h⟩
  · exact ⟨[], by simp, by simp⟩
  · obtain ⟨bs, o, e, es, trace, hloop⟩ := recvLoop_trace s.len (s.setIdx 0)
    cases hloop.symm.trans h
    exact ⟨es, rfl, trace.uses⟩

theorem execEncode_uses {s t : State} (h : exec .encode s = .next t) (ho : t.outcome ≠ .invalidArgument) :
    ∃ bs o, t.trace = s.trace ++ [.send bs o] := by
  rcases execEncode_cases h with ⟨-, rfl⟩ | ⟨-, -, m, bs, o, e, -, rfl⟩
  · exact absurd (rejectArgs_outcome _ _) ho
  · exact ⟨bs, o, rfl⟩

theorem execDecode_uses {s t : State} (h : exec .decode s = .next t) (ho : t.outcome ≠ .invalidArgument) :
    ∃ a, t.trace = s.trace ++ [.recv a] := by
  rcases execDecode_cases h with ⟨-, rfl⟩ | ⟨-, -, ⟨e, rfl⟩ | ⟨bs, e, rfl⟩⟩
  · exact absurd (rejectArgs_outcome _ _) ho
  · exact ⟨.channelError, rfl⟩
  · exact ⟨.ok bs, rfl⟩

theorem execResync_silent {s t : State} (h : exec .resync s = .next t) : t.trace = s.trace ∧ t.env = s.env := by
  rcases execResync_cases h with ⟨-, rfl⟩ | ⟨-, -, rfl | ⟨k, -, rfl⟩⟩
  · exact ⟨rejectArgs_trace _ _, rejectArgs_env _ _⟩
  · exact ⟨rfl, rfl⟩
  · exact ⟨rfl, rfl⟩

/-- Only the entry of a command ends it INVALID_ARGUMENT (60_exceptions.md R234). -/
theorem eq_rejectArgs_of_invalidArgument {i : Instr} {s t : State} (h : exec i s = .next t)
    (ho : t.outcome = .invalidArgument) : t = rejectArgs i s := by
  cases i with
  | write =>
    rcases execWrite_cases h with ⟨-, rfl⟩ | ⟨-, -, o, e, es, rfl | rfl, rfl⟩
    · rfl
    · cases ho
    · cases ho
  | wtr =>
    rcases execWtr_cases h with ⟨-, rfl⟩ | ⟨-, -, o, e, es, bs, rfl | rfl, -, rfl⟩
    · rfl
    · cases ho
    · cases ho
  | encode =>
    rcases execEncode_cases h with ⟨-, rfl⟩ | ⟨-, -, m, bs, o, e, -, rfl⟩
    · rfl
    · cases o <;> cases ho
  | decode =>
    rcases execDecode_cases h with ⟨-, rfl⟩ | ⟨-, -, ⟨e, rfl⟩ | ⟨bs, e, rfl⟩⟩
    · rfl
    · cases ho
    · cases hv : frameValid bs <;> simp [hv] at ho
  | resync =>
    rcases execResync_cases h with ⟨-, rfl⟩ | ⟨-, -, rfl | ⟨k, -, rfl⟩⟩
    · rfl
    · cases ho
    · cases ho

/-- Settles O43: command by command, and the end at the entry. -/
theorem eachCommandUsesOnlyItsPort : Obligations.EachCommandUsesOnlyItsPort := by
  refine ⟨fun _ _ => execWrite_uses, fun _ _ => execWtr_uses, fun _ _ => execEncode_uses,
    fun _ _ => execDecode_uses, fun _ _ => execResync_silent, fun i s t h ho => ?_⟩
  rw [eq_rejectArgs_of_invalidArgument h ho]
  exact ⟨rejectArgs_trace i s, rejectArgs_env i s⟩

end Sys2Proof.Machine

namespace Sys2Proof.Machine

/-! ## One row of the polling FSM (40_polling_fsm.md R130) -/

theorem pollRow_exhausted {p : Pred} {s : State} (yes : State → State) (h : s.cnt = s.limit) :
    pollRow p s yes = s.finish .timeout := if_pos h

theorem pollRow_true {p : Pred} {s t : State} (yes : State → State) (h : s.cnt < s.limit)
    (ha : ask p s = (true, t)) : pollRow p s yes = yes t := by
  rw [pollRow, if_neg (Nat.ne_of_lt h), ha]

theorem pollRow_false {p : Pred} {s t : State} (yes : State → State) (h : s.cnt < s.limit)
    (ha : ask p s = (false, t)) : pollRow p s yes = t.setCnt (t.cnt + 1) := by
  rw [pollRow, if_neg (Nat.ne_of_lt h), ha]

theorem fsmStep_wTxRdy {s : State} (h : s.fsm = .wTxRdy) :
    fsmStep s = .next (pollRow .txReady s fun t => t.setFsm .wPut) := by
  rw [fsmStep, h]

theorem fsmStep_wPut {s : State} (h : s.fsm = .wPut) : fsmStep s = rowPut s := by
  rw [fsmStep, h]

theorem fsmStep_wTxc {s : State} (h : s.fsm = .wTxc) : fsmStep s = .next (pollRow .txComplete s rowSent) := by
  rw [fsmStep, h]

theorem fsmStep_rPut {s : State} (h : s.fsm = .rPut) :
    fsmStep s = .next (((putByte s.fill s).setCnt 0).setFsm .rRxRdy) := by
  rw [fsmStep, h]

theorem fsmStep_rRxRdy {s : State} (h : s.fsm = .rRxRdy) :
    fsmStep s = .next (pollRow .rxReady s fun t => t.setFsm .rGet) := by
  rw [fsmStep, h]

theorem fsmStep_rGet {s : State} (h : s.fsm = .rGet) : fsmStep s = .next (rowGet s) := by
  rw [fsmStep, h]

theorem rowPut_written {s : State} {b : Byte} (h : s.mem.read (s.ptr + s.idx) = some b) :
    rowPut s = .next (((putByte b s).setCnt 0).setFsm .wTxc) := by
  rw [rowPut, h]

theorem rowPut_unwritten {s : State} (h : s.mem.read (s.ptr + s.idx) = none) :
    rowPut s = .refused .unwrittenByte := by
  rw [rowPut, h]

theorem rowSent_last {s : State} (h : s.idx + 1 = s.len) : rowSent s = s.finish .ok := if_pos h

theorem rowSent_next {s : State} (h : s.idx + 1 ≠ s.len) :
    rowSent s = ((s.setIdx (s.idx + 1)).setCnt 0).setFsm .wTxRdy := if_neg h

/-- A get moves the environment on and records the byte. -/
theorem eq_heard_of_getByte {s t : State} {b : Byte} (h : getByte s = (b, t)) : ∃ e, t = s.heard e [.get b] := by
  obtain ⟨b', e, hg⟩ := getByte_cases s
  cases hg.symm.trans h
  exact ⟨e, rfl⟩

theorem rowGet_last {s t : State} {b : Byte} (hg : getByte s = (b, t)) (h : t.idx + 1 = t.len) :
    rowGet s = (t.setMem (t.mem.write (t.ptr + t.idx) b)).finish .ok := by
  rw [rowGet, hg]
  exact if_pos h

theorem rowGet_next {s t : State} {b : Byte} (hg : getByte s = (b, t)) (h : t.idx + 1 ≠ t.len) :
    rowGet s = ((t.setMem (t.mem.write (t.ptr + t.idx) b)).setIdx (t.idx + 1)).setFsm .rPut := by
  rw [rowGet, hg]
  exact if_neg h

/-- A row that polls, by its three conditions; on a false answer FSM stays. -/
theorem pollRow_table {p : Pred} {f : Fsm} {yes : State → State}
    (hrow : ∀ s : State, s.fsm = f → fsmStep s = .next (pollRow p s yes)) :
    (∀ s, s.fsm = f → s.cnt = s.limit → fsmStep s = .next (s.finish .timeout)) ∧
    (∀ s t, s.fsm = f → s.cnt < s.limit → ask p s = (true, t) → fsmStep s = .next (yes t)) ∧
    (∀ s t, s.fsm = f → s.cnt < s.limit → ask p s = (false, t) →
      fsmStep s = .next { t with cnt := s.cnt + 1, fsm := f }) := by
  refine ⟨fun s hf hc => ?_, fun s t hf hc ha => ?_, fun s t hf hc ha => ?_⟩
  · rw [hrow s hf, pollRow_exhausted yes hc]
  · rw [hrow s hf, pollRow_true yes hc ha]
  · rw [hrow s hf, pollRow_false yes hc ha]
    obtain ⟨e, rfl⟩ := eq_heard_of_ask ha
    subst hf
    rfl

/-- Settles O52: the rows of IDLE, then row by row. -/
theorem pollingFsmFollowsItsTable : Obligations.PollingFsmFollowsItsTable := by
  obtain ⟨txRdyOut, txRdyTrue, txRdyFalse⟩ := pollRow_table fun s => fsmStep_wTxRdy (s := s)
  obtain ⟨txcOut, txcTrue, txcFalse⟩ := pollRow_table fun s => fsmStep_wTxc (s := s)
  obtain ⟨rxRdyOut, rxRdyTrue, rxRdyFalse⟩ := pollRow_table fun s => fsmStep_rRxRdy (s := s)
  refine ⟨fun s h => ?_, fun s h => ?_, txRdyOut, txRdyTrue, txRdyFalse, fun s b hf hb => ?_, txcOut,
    fun s t hf hc ha hlast => ?_, fun s t hf hc ha hnext => ?_, txcFalse, fun s hf => fsmStep_rPut hf, rxRdyOut,
    rxRdyTrue, rxRdyFalse, fun s t b hf hg hlast => ?_, fun s t b hf hg hnext => ?_⟩
  · have invalid : argInvalid .write s = true := by simpa [argInvalid] using h
    exact ⟨enter_invalid _ invalid, enter_invalid (i := .wtr) _ invalid⟩
  · exact ⟨enter_buffer h (by decide) (by decide) _, enter_buffer h (by decide) (by decide) _⟩
  · rw [fsmStep_wPut hf, rowPut_written hb]
    rfl
  · rw [txcTrue s t hf hc ha]
    obtain ⟨e, rfl⟩ := eq_heard_of_ask ha
    rw [rowSent_last (s := s.heard e _) hlast]
  · rw [txcTrue s t hf hc ha]
    obtain ⟨e, rfl⟩ := eq_heard_of_ask ha
    rw [rowSent_next (s := s.heard e _) (Nat.ne_of_lt hnext)]
    rfl
  · obtain ⟨e, rfl⟩ := eq_heard_of_getByte hg
    rw [fsmStep_rGet hf, rowGet_last hg hlast]
    rfl
  · obtain ⟨e, rfl⟩ := eq_heard_of_getByte hg
    rw [fsmStep_rGet hf, rowGet_next hg (Nat.ne_of_lt hnext)]
    rfl

end Sys2Proof.Machine

namespace Sys2Proof.Machine

/-! ## Rows that compute a result (40_polling_fsm.md R130, 42_frame_codec.md R196) -/

/-- Some number of rows from `s`, at most `n`, gives `r`. -/
def RowsGive (n : Nat) (s : State) (r : Result) : Prop := ∃ k ≤ n, fsmRun k s = r

namespace RowsGive

variable {n m : Nat} {s t : State} {r : Result}

theorem mono (h : RowsGive n s r) (hn : n ≤ m) : RowsGive m s r := by
  obtain ⟨k, hk, h⟩ := h
  exact ⟨k, hk.trans hn, h⟩

/-- More rows after rows that answered a next state. -/
theorem trans (ht : RowsGive n s (.next t)) (h : RowsGive m t r) : RowsGive (n + m) s r := by
  obtain ⟨k, hk, ht⟩ := ht
  obtain ⟨j, hj, h⟩ := h
  exact ⟨k + j, Nat.add_le_add hk hj, fsmRun_trans ht h⟩

theorem one_row (h : fsmStep s = r) : RowsGive 1 s r := ⟨1, le_rfl, fsmRun_one h⟩

end RowsGive

/-! ## The rows of a wait -/

/-- Rows that poll `p` at the FSM value `f` compute the wait with `n` polls left: at most `n` rows when it is answered,
and one more when it is not. -/
theorem pollLoop_rows {p : Pred} {f : Fsm} {yes : State → State}
    (hrow : ∀ s : State, s.fsm = f → fsmStep s = .next (pollRow p s yes)) {n : Nat} {s : State}
    (hn : s.cnt + n = s.limit) :
    (∃ t, pollLoop p n s = (.ready, t) ∧ RowsGive n (s.setFsm f) (.next (yes (t.setFsm f)))) ∨
    (∃ t, pollLoop p n s = (.timeout, t) ∧ RowsGive (n + 1) (s.setFsm f) (.next (t.finish .timeout))) := by
  have row := hrow (s.setFsm f) rfl
  induction n generalizing s with
  | zero =>
    have out : pollRow p (s.setFsm f) yes = (s.setFsm f).finish .timeout := pollRow_exhausted yes hn
    rw [out] at row
    exact .inr ⟨s, rfl, .one_row row⟩
  | succ n ih =>
    have below : (s.setFsm f).cnt < (s.setFsm f).limit := Nat.lt_of_lt_of_eq (by simp) hn
    obtain ⟨r, e, ha, ha'⟩ : ∃ r e, ask p s = (r, s.heard e [p.event r]) ∧
        ask p (s.setFsm f) = (r, (s.heard e [p.event r]).setFsm f) := ⟨_, _, rfl, rfl⟩
    cases r with
    | true =>
      rw [pollRow_true yes below ha'] at row
      exact .inl ⟨_, pollLoop_true ha, (RowsGive.one_row row).mono (by omega)⟩
    | false =>
      rw [pollRow_false yes below ha'] at row
      have first : RowsGive 1 (s.setFsm f)
          (.next (((s.heard e [p.event false]).setCnt (s.cnt + 1)).setFsm f)) := .one_row row
      have hn' : s.cnt + 1 + n = s.limit := by omega
      rw [pollLoop_false ha]
      rcases ih (s := (s.heard e [p.event false]).setCnt (s.cnt + 1)) hn' (hrow _ rfl) with
        ⟨t, ht, hrows⟩ | ⟨t, ht, hrows⟩
      · exact .inl ⟨t, ht, (first.trans hrows).mono (by omega)⟩
      · exact .inr ⟨t, ht, (first.trans hrows).mono (by omega)⟩

/-- `t` stands at the same position of the same buffer, under the same ceiling, as `s`. -/
structure SamePlace (s t : State) : Prop where
  ptr : t.ptr = s.ptr
  len : t.len = s.len
  idx : t.idx = s.idx
  limit : t.limit = s.limit

theorem poll_samePlace {p : Pred} {s t : State} {w : PollResult} (h : poll p s = (w, t)) : SamePlace s t := by
  rcases poll_cases p s with ⟨k, e, -, hp⟩ | ⟨e, hp⟩ <;>
  · cases hp.symm.trans h
    exact ⟨rfl, rfl, rfl, rfl⟩

/-- The rows of a wait, from CNT 0. -/
theorem poll_rows {p : Pred} {f : Fsm} {yes : State → State}
    (hrow : ∀ s : State, s.fsm = f → fsmStep s = .next (pollRow p s yes)) (s : State) :
    (∃ t, SamePlace s t ∧ poll p s = (.ready, t) ∧
      RowsGive s.limit ((s.setCnt 0).setFsm f) (.next (yes (t.setFsm f)))) ∨
    (∃ t, poll p s = (.timeout, t) ∧ RowsGive (s.limit + 1) ((s.setCnt 0).setFsm f) (.next (t.finish .timeout))) := by
  rcases pollLoop_rows hrow (s := s.setCnt 0) (Nat.zero_add s.limit) with ⟨t, h, rows⟩ | ⟨t, h, rows⟩
  · exact .inl ⟨t, poll_samePlace h, h, rows⟩
  · exact .inr ⟨t, h, rows⟩

end Sys2Proof.Machine

namespace Sys2Proof.Machine

/-! ## The rows of WRITE, WTR and RESYNC (40_polling_fsm.md R130; log 9) -/

/-- What the rows from `start s` make of the next position of `loop`: they end as the loop does, or they reach, as the
loop does, the next position in a state `u`, where the loop is at its end if this was the last position. A wait takes at
most LIMIT rows when it is answered and one more when it is not, so two waits and a put take at most `2 * LIMIT + 2`. -/
def PositionRows (loop : Nat → State → Result) (start : State → State) (n : Nat) (s : State) : Prop :=
  RowsGive (2 * s.limit + 2) (start s) (loop (n + 1) s) ∨
  ∃ u : State, u.limit = s.limit ∧ u.len = s.len ∧ u.idx = s.idx + 1 ∧ loop (n + 1) s = loop n u ∧
    RowsGive (2 * s.limit + 2) (start s) (if s.idx + 1 = s.len then loop 0 u else .next (start u))

/-- Rows that compute each position of a loop compute the loop. -/
theorem loop_rows {loop : Nat → State → Result} {start : State → State} (h : ∀ n s, PositionRows loop start n s)
    {n : Nat} {s : State} (hn : s.idx + (n + 1) = s.len) :
    RowsGive ((n + 1) * (2 * s.limit + 2)) (start s) (loop (n + 1) s) := by
  induction n generalizing s with
  | zero =>
    rw [Nat.zero_add, Nat.one_mul]
    rcases h 0 s with rows | ⟨u, -, -, -, hloop, rows⟩
    · exact rows
    · rwa [if_pos hn, ← hloop] at rows
  | succ n ih =>
    rw [Nat.add_one_mul, Nat.add_comm]
    rcases h (n + 1) s with rows | ⟨u, hlimit, hlen, hidx, hloop, rows⟩
    · exact rows.mono (Nat.le_add_right _ _)
    · rw [if_neg (by omega)] at rows
      rw [hloop, ← hlimit]
      exact (hlimit ▸ rows).trans (ih (by omega))

/-- At the end of a position the row W_TXC ends WRITE as its loop does, or goes on to the next position. -/
theorem rowSent_position (t : State) :
    .next (rowSent (t.setFsm .wTxc)) =
      if t.idx + 1 = t.len then sendLoop 0 (t.setIdx (t.idx + 1))
      else .next (((t.setIdx (t.idx + 1)).setCnt 0).setFsm .wTxRdy) := by
  split_ifs with h
  · rw [rowSent_last (s := t.setFsm .wTxc) h]
    rfl
  · rw [rowSent_next (s := t.setFsm .wTxc) h]
    rfl

/-- A byte of WRITE: the `TxReady` wait, the put, the `TxComplete` wait. -/
theorem sendByte_rows (n : Nat) (s : State) :
    PositionRows sendLoop (fun s => (s.setCnt 0).setFsm .wTxRdy) n s := by
  rcases poll_rows (fun s => fsmStep_wTxRdy (s := s)) s with ⟨t, ht, ready, rows⟩ | ⟨t, ready, rows⟩
  · cases hb : t.mem.read (t.ptr + t.idx) with
    | none =>
      have stop : RowsGive 1 (t.setFsm .wPut) (.refused .unwrittenByte) :=
        .one_row (rowPut_unwritten (s := t.setFsm .wPut) hb)
      refine .inl ?_
      rw [sendLoop_unwritten ready hb]
      exact (rows.trans stop).mono (by omega)
    | some b =>
      have put : RowsGive 1 (t.setFsm .wPut) (.next (((putByte b t).setCnt 0).setFsm .wTxc)) :=
        .one_row (rowPut_written (s := t.setFsm .wPut) hb)
      have hlimit : (putByte b t).limit = s.limit := ht.limit
      rcases poll_rows (fun s => fsmStep_wTxc (s := s)) (putByte b t) with
        ⟨u, hu, done, rows'⟩ | ⟨u, done, rows'⟩
      · have hidx : u.idx = s.idx := hu.idx.trans ht.idx
        have hlen : u.len = s.len := hu.len.trans ht.len
        rw [rowSent_position, hidx, hlen] at rows'
        refine .inr ⟨u.setIdx (s.idx + 1), hu.limit.trans ht.limit, hlen, rfl, ?_,
          ((rows.trans put).trans rows').mono (by omega)⟩
        rw [sendLoop_sent ready hb done, hidx]
      · refine .inl ?_
        rw [sendLoop_notComplete ready hb done]
        exact ((rows.trans put).trans rows').mono (by omega)
  · refine .inl ?_
    rw [sendLoop_notReady ready]
    exact rows.mono (by omega)

/-- At the end of a position the row R_GET ends WTR as its loop does, or goes on to the next position. -/
theorem rowGet_position {t : State} {b : Byte} {e : Env} (hg : getByte t = (b, t.heard e [.get b])) :
    .next (rowGet (t.setFsm .rGet)) =
      if t.idx + 1 = t.len then
        recvLoop 0 (((t.heard e [.get b]).setMem (t.mem.write (t.ptr + t.idx) b)).setIdx (t.idx + 1))
      else
        .next ((((t.heard e [.get b]).setMem (t.mem.write (t.ptr + t.idx) b)).setIdx (t.idx + 1)).setFsm .rPut) := by
  have got : getByte (t.setFsm .rGet) = (b, (t.heard e [.get b]).setFsm .rGet) := by
    rw [getByte_eq, Prod.mk.injEq] at hg
    obtain ⟨rfl, he⟩ := hg
    rw [← he]
    rfl
  split_ifs with h
  · rw [rowGet_last got h]
    rfl
  · rw [rowGet_next got h]
    rfl

/-- A byte of WTR: the put, the `RxReady` wait, the get. -/
theorem recvByte_rows (n : Nat) (s : State) : PositionRows recvLoop (fun s => s.setFsm .rPut) n s := by
  have put : RowsGive 1 (s.setFsm .rPut) (.next (((putByte s.fill s).setCnt 0).setFsm .rRxRdy)) :=
    .one_row (fsmStep_rPut (s := s.setFsm .rPut) rfl)
  have hlimit : (putByte s.fill s).limit = s.limit := rfl
  rcases poll_rows (fun s => fsmStep_rRxRdy (s := s)) (putByte s.fill s) with
    ⟨t, ht, ready, rows⟩ | ⟨t, ready, rows⟩
  · obtain ⟨b, e, hget⟩ := getByte_cases t
    have got : RowsGive 1 (t.setFsm .rGet) (.next (rowGet (t.setFsm .rGet))) := .one_row rfl
    have hidx : t.idx = s.idx := ht.idx
    have hlen : t.len = s.len := ht.len
    rw [rowGet_position hget, hidx, hlen] at got
    refine .inr ⟨((t.heard e [.get b]).setMem (t.mem.write (t.ptr + s.idx) b)).setIdx (s.idx + 1), ht.limit, ht.len,
      rfl, ?_, ((put.trans rows).trans got).mono (by omega)⟩
    rw [recvLoop_received ready, hget, hidx]
  · refine .inl ?_
    rw [recvLoop_notReady ready]
    exact (put.trans rows).mono (by omega)

/-- The rows of RESYNC with `n` offsets still to test: one row each, and one for the end. -/
theorem scanLoop_rows {n : Nat} {s : State} (hn : s.idx + (n + 1) = s.len) :
    RowsGive (n + 1) (s.setFsm .sScan) (scanLoop n s) := by
  induction n generalizing s with
  | zero =>
    have row : fsmStep (s.setFsm .sScan) = .next ((s.setRes 0).finish .notFound) := if_pos hn
    exact .one_row row
  | succ n ih =>
    have more : s.idx + 1 ≠ s.len := by omega
    have row : fsmStep (s.setFsm .sScan) = _ := if_neg more
    simp only [setFsm_mem, setFsm_ptr, setFsm_idx] at row
    rw [scanLoop]
    cases hpair : testPair s.mem (s.ptr + s.idx) with rw [hpair] at row
    | unwritten => exact (RowsGive.one_row row).mono (by omega)
    | isHeader => exact (RowsGive.one_row row).mono (by omega)
    | isNot =>
      have rest := ih (s := s.setIdx (s.idx + 1)) (by simp; omega)
      exact ((RowsGive.one_row row).trans rest).mono (by omega)

end Sys2Proof.Machine

namespace Sys2Proof.Machine

/-! ## The rows of ENCODE and DECODE (42_frame_codec.md R192, R196; log 9, log 17) -/

theorem sumRecord_congr {m m' : Mem} {a : Nat} {ks : List Nat}
    (h : ∀ k ∈ ks, m'.read16 (a + 2 * k) = m.read16 (a + 2 * k)) (acc : Half) :
    sumRecord m' a ks acc = sumRecord m a ks acc := by
  induction ks generalizing acc with
  | nil => rfl
  | cons k ks ih =>
    rw [sumRecord, sumRecord, h k (by simp)]
    cases m.read16 (a + 2 * k) with
    | none => rfl
    | some w => exact ih (fun k hk => h k (by simp [hk])) _

/-- The sum of ENCODE does not read the trailer (41_checksum_validator.md R173). -/
theorem recordTrailer_write_trailer (m : Mem) (a : Nat) (b : Byte) :
    recordTrailer (m.write (a + 30) b) a = recordTrailer m a := by
  have fields (k : Nat) (hk : k ∈ List.range 15) :
      (m.write (a + 30) b).read16 (a + 2 * k) = m.read16 (a + 2 * k) := by
    have hk : k < 15 := List.mem_range.1 hk
    rw [Mem.read16, Mem.read16, read_write_ne m b (by omega), read_write_ne m b (by omega)]
  rw [recordTrailer, recordTrailer, sumRecord_congr fields]

theorem sendRecord_setFsm (bs : Frame) (s : State) (f : Fsm) : sendRecord bs (s.setFsm f) = sendRecord bs s := by
  rw [sendRecord, sendRecord, chSend_eq, chSend_eq, setFsm_env]
  cases s.env.nextSend.1 <;> rfl

theorem rowTrailer_eq_of_trailer {part : Half → Byte} {j : Nat} {next : Fsm} {s : State} {c : Half}
    (h : recordTrailer s.mem s.ptr = some c) :
    rowTrailer part j next s = .next ((s.setMem (s.mem.write (s.ptr + j) (part c))).setFsm next) := by
  rw [rowTrailer, h]

theorem rowTrailer_unwritten {part : Half → Byte} {j : Nat} {next : Fsm} {s : State}
    (h : recordTrailer s.mem s.ptr = none) : rowTrailer part j next s = .refused .unwrittenByte := by
  rw [rowTrailer, h]

/-- ENCODE: the header, the trailer, the send, a row for each byte stored. -/
theorem encodeBody_rows (s : State) : RowsGive 5 (s.setFsm .eHeaderLo) (encodeBody s) := by
  have lo : RowsGive 1 (s.setFsm .eHeaderLo)
      (.next ((s.setMem (s.mem.write s.ptr (lo8 Config.header))).setFsm .eHeaderHi)) := .one_row rfl
  have hi : RowsGive 1 ((s.setMem (s.mem.write s.ptr (lo8 Config.header))).setFsm .eHeaderHi)
      (.next ((s.setMem (s.mem.write16 s.ptr Config.header)).setFsm .eTrailerLo)) := .one_row rfl
  have header := lo.trans hi
  rw [encodeBody, encodeRecord]
  generalize s.mem.write16 s.ptr Config.header = m at header ⊢
  cases hc : recordTrailer m s.ptr with
  | none =>
    have stop : RowsGive 1 ((s.setMem m).setFsm .eTrailerLo) (.refused .unwrittenByte) :=
      .one_row (rowTrailer_unwritten (s := (s.setMem m).setFsm .eTrailerLo) hc)
    exact (header.trans stop).mono (by omega)
  | some c =>
    have lo' : RowsGive 1 ((s.setMem m).setFsm .eTrailerLo)
        (.next ((s.setMem (m.write (s.ptr + 30) (lo8 c))).setFsm .eTrailerHi)) :=
      .one_row (rowTrailer_eq_of_trailer (s := (s.setMem m).setFsm .eTrailerLo) hc)
    have hc' : recordTrailer (m.write (s.ptr + 30) (lo8 c)) s.ptr = some c := by
      rw [recordTrailer_write_trailer, hc]
    have hi' : RowsGive 1 ((s.setMem (m.write (s.ptr + 30) (lo8 c))).setFsm .eTrailerHi)
        (.next ((s.setMem (m.write16 (s.ptr + 30) c)).setFsm .eSend)) :=
      .one_row (rowTrailer_eq_of_trailer (s := (s.setMem (m.write (s.ptr + 30) (lo8 c))).setFsm .eTrailerHi) hc')
    have send : RowsGive 1 ((s.setMem (m.write16 (s.ptr + 30) c)).setFsm .eSend)
        (rowSend ((s.setMem (m.write16 (s.ptr + 30) c)).setFsm .eSend)) := .one_row rfl
    have rows := ((header.trans lo').trans hi').trans send
    rw [rowSend] at rows
    simp only [setFsm_mem, setFsm_ptr, setMem_mem, setMem_ptr, sendRecord_setFsm] at rows
    cases hbs : (m.write16 (s.ptr + 30) c).readFrame s.ptr with
    | none => simpa [hbs] using rows
    | some bs => simpa [hbs] using rows

/-- The check of DECODE reads back the frame it has stored. -/
theorem rowValidate_received {s : State} {m : Mem} {bs : Frame} (h : s.mem = m.writeBytes s.ptr bs.toList) :
    rowValidate s = .next (s.setFsm (if frameValid bs then .accepted else .rejected)) := by
  rw [rowValidate, h, readFrame_writeBytes]

/-- DECODE: the receive, the check of the record as read back, the end. -/
theorem decodeBody_rows (s : State) : RowsGive 3 (s.setFsm .awaitingHeader) (decodeBody s) := by
  have recv : RowsGive 1 (s.setFsm .awaitingHeader) (.next (rowRecv (s.setFsm .awaitingHeader))) := .one_row rfl
  rw [rowRecv, chRecv_eq] at recv
  rw [decodeBody, chRecv_eq]
  rw [setFsm_env] at recv
  generalize s.env.nextRecv = answer at recv ⊢
  obtain ⟨a, e⟩ := answer
  cases a with
  | channelError =>
    have stop : RowsGive 1 ((s.heard e [.recv .channelError]).setFsm .channelError)
        (.next ((s.heard e [.recv .channelError]).finish .channelError)) := .one_row rfl
    exact (recv.trans stop).mono (by omega)
  | ok bs =>
    have check : RowsGive 1
        (((s.heard e [.recv (.ok bs)]).setMem (s.mem.writeBytes s.ptr bs.toList)).setFsm .validatingChecksum)
        (.next (((s.heard e [.recv (.ok bs)]).setMem (s.mem.writeBytes s.ptr bs.toList)).setFsm
          (if frameValid bs then .accepted else .rejected))) := .one_row (rowValidate_received rfl)
    have stop : RowsGive 1
        (((s.heard e [.recv (.ok bs)]).setMem (s.mem.writeBytes s.ptr bs.toList)).setFsm
          (if frameValid bs then .accepted else .rejected))
        (.next (((s.heard e [.recv (.ok bs)]).setMem (s.mem.writeBytes s.ptr bs.toList)).finish
          (if frameValid bs then .ok else .malformed))) := by
      cases frameValid bs <;> exact .one_row rfl
    exact (recv.trans check).trans stop

/-! ## The state tables and the commands -/

/-- The row of IDLE past the entry of a command: where its table begins. -/
def fsmEntry (i : Instr) (s : State) : State :=
  match i with
  | .write => ((s.setIdx 0).setCnt 0).setFsm .wTxRdy
  | .wtr => (s.setIdx 0).setFsm .rPut
  | .encode => s.setFsm .eHeaderLo
  | .decode => s.setFsm .awaitingHeader
  | .resync => (s.setIdx 0).setFsm .sScan

theorem fsmStart_eq_enter (i : Instr) (s : State) : fsmStart i s = enter i s (.next (fsmEntry i s)) := by
  cases i <;> rfl

/-- With valid arguments a buffer has a first position; WTR and RESYNC make the same test as WRITE. -/
theorem exists_len_eq_succ {s : State} (h : argInvalid .write s = false) : ∃ n, s.len = n + 1 := by
  obtain ⟨-, hlen⟩ : ¬ s.ptr = 0 ∧ ¬ s.len = 0 := by simpa [argInvalid] using h
  exact Nat.exists_eq_succ_of_ne_zero hlen

/-- The rows of a command with valid arguments compute its body. -/
theorem commandBody_rows {i : Instr} {s : State} (h : argInvalid i s = false) :
    RowsGive (8 + s.len * (2 * s.limit + 2)) (fsmEntry i s) (commandBody i s) := by
  cases i with
  | write =>
    obtain ⟨n, hn⟩ := exists_len_eq_succ h
    have rows := loop_rows sendByte_rows (n := n) (s := s.setIdx 0) (by simp [hn])
    rw [← hn] at rows
    exact rows.mono (Nat.le_add_left _ _)
  | wtr =>
    obtain ⟨n, hn⟩ := exists_len_eq_succ h
    have rows := loop_rows recvByte_rows (n := n) (s := s.setIdx 0) (by simp [hn])
    rw [← hn] at rows
    exact rows.mono (Nat.le_add_left _ _)
  | encode => exact (encodeBody_rows s).mono (by omega)
  | decode => exact (decodeBody_rows s).mono (by omega)
  | resync =>
    obtain ⟨n, hn⟩ := exists_len_eq_succ h
    have rows := scanLoop_rows (n := s.len - 1) (s := s.setIdx 0) (by simp [hn])
    have hle : s.len ≤ s.len * (2 * s.limit + 2) := Nat.le_mul_of_pos_right _ (by omega)
    exact rows.mono (by omega)

/-- Settles O54: the table and the command share their entry, and past it the rows compute the body. -/
theorem stateTablesComputeTheCommands : Obligations.StateTablesComputeTheCommands := by
  intro i s
  rw [fsmStart_eq_enter, exec_eq_enter]
  cases ha : argInvalid i s with
  | true => exact ⟨0, Nat.zero_le _, by rw [enter_invalid _ ha, enter_invalid _ ha]; rfl⟩
  | false =>
    cases hl : legalExtent i s with
    | true =>
      rw [enter_accepted _ ha hl, enter_accepted _ ha hl]
      exact commandBody_rows ha
    | false => exact ⟨0, Nat.zero_le _, by rw [enter_illegal _ ha hl, enter_illegal _ ha hl]; rfl⟩

end Sys2Proof.Machine

namespace Sys2Proof.Machine

/-! ## Fields and their bytes (41_checksum_validator.md R165) -/

theorem toNat_ofBytes (hi lo : Byte) : (ofBytes hi lo).toNat = lo.toNat + 256 * hi.toNat := by
  rw [ofBytes, BitVec.toNat_append, ← Nat.shiftLeft_add_eq_or_of_lt lo.isLt, Nat.shiftLeft_eq]
  omega

@[simp] theorem lo8_field (bs : Frame) (k : Fin 16) : lo8 (field bs k) = bs[2 * k.val] := lo8_ofBytes _ _

@[simp] theorem hi8_field (bs : Frame) (k : Fin 16) : hi8 (field bs k) = bs[2 * k.val + 1] := hi8_ofBytes _ _

theorem field_eq_iff {bs cs : Frame} {k : Fin 16} :
    field cs k = field bs k ↔ cs[2 * k.val] = bs[2 * k.val] ∧ cs[2 * k.val + 1] = bs[2 * k.val + 1] := by
  constructor
  · intro h
    exact ⟨by rw [← lo8_field, h, lo8_field], by rw [← hi8_field, h, hi8_field]⟩
  · rintro ⟨hlo, hhi⟩
    rw [field, field, hlo, hhi]

/-- Settles O44: `ofBytes` as a number, and the two bytes of the record. -/
theorem fieldsAreLittleEndian : Obligations.FieldsAreLittleEndian := by
  refine ⟨fun bs k h => toNat_ofBytes _ _, fun m a bs k h hbs => ?_⟩
  rw [readFrame_eq_some] at hbs
  rw [read16_eq_some, lo8_field, hi8_field]
  exact ⟨hbs (2 * k) (by omega), hbs (2 * k + 1) (by omega)⟩

/-! ## Marshal and Unmarshal (41_checksum_validator.md R166, R167) -/

/-- Every byte position is the low or the high byte of its field. -/
theorem byte_cases {j : Nat} (h : j < 32) : ∃ k : Fin 16, j = 2 * k.val ∨ j = 2 * k.val + 1 :=
  ⟨⟨j / 2, by omega⟩, by dsimp only; omega⟩

theorem marshal_lo (t : Fields) (k : Fin 16) : (marshal t)[2 * k.val] = lo8 (fieldOf t k) := by
  simp [marshal]

theorem marshal_hi (t : Fields) (k : Fin 16) : (marshal t)[2 * k.val + 1] = hi8 (fieldOf t k) := by
  have hdiv : (2 * k.val + 1) / 2 = k.val := by omega
  simp [marshal, hdiv]

@[simp] theorem field_marshal (t : Fields) (k : Fin 16) : field (marshal t) k = fieldOf t k := by
  rw [field, marshal_lo, marshal_hi, ofBytes_hi_lo]

theorem fieldOf_slot (t : Fields) {n : Nat} (h : n < 14) : fieldOf t ⟨n + 1, by omega⟩ = t.slot[n] := by
  have hn : n + 1 < 15 := by omega
  simp [fieldOf, hn]

@[simp] theorem fieldOf_unmarshal (bs : Frame) (k : Fin 16) : fieldOf (unmarshal bs) k = field bs k := by
  obtain ⟨k, hk⟩ := k
  by_cases h0 : k = 0
  · subst h0; rfl
  · by_cases h15 : k = 15
    · subst h15; rfl
    · obtain ⟨n, rfl⟩ := Nat.exists_eq_succ_of_ne_zero h0
      rw [fieldOf_slot _ (by omega)]
      exact Vector.getElem_ofFn _

theorem unmarshal_marshal (t : Fields) : unmarshal (marshal t) = t := by
  have slots : (Vector.ofFn fun n : Fin 14 => field (marshal t) ⟨n.val + 1, by omega⟩) = t.slot := by
    ext n hn
    rw [Vector.getElem_ofFn, field_marshal, fieldOf_slot t hn]
  rw [unmarshal, slots, field_marshal, field_marshal]
  rfl

theorem marshal_unmarshal (bs : Frame) : marshal (unmarshal bs) = bs := by
  refine Vector.ext fun j hj => ?_
  obtain ⟨k, rfl | rfl⟩ := byte_cases hj
  · rw [marshal_lo, fieldOf_unmarshal, lo8_field]
  · rw [marshal_hi, fieldOf_unmarshal, hi8_field]

/-- Settles O45: the places of the fields are those of `fieldOf`. -/
theorem unmarshalAndMarshalAreInverse : Obligations.UnmarshalAndMarshalAreInverse := by
  refine ⟨unmarshal_marshal, marshal_unmarshal, fun t =>
    ⟨marshal_lo t 0, marshal_hi t 0, marshal_lo t 15, marshal_hi t 15, fun n h => ?_⟩⟩
  rw [← fieldOf_slot t h]
  exact ⟨marshal_lo t ⟨n + 1, by omega⟩, marshal_hi t ⟨n + 1, by omega⟩⟩

/-! ## Sums of fields (41_checksum_validator.md R160, R169) -/

/-- Addition of fields is the addition of numbers modulo 65536 (00_scope.md R7). -/
theorem toNat_sum (l : List Half) : l.sum.toNat = (l.map BitVec.toNat).sum % 65536 := by
  induction l with
  | nil => rfl
  | cons w rest ih =>
    rw [List.sum_cons, List.map_cons, List.sum_cons, BitVec.toNat_add, ih]
    exact Nat.add_mod_mod _ _ _

theorem sum16_eq (bs : Frame) : sum16 bs = ∑ k : Fin 15, field bs k.castSucc := by
  rw [Fin.sum_univ_def, List.sum_eq_foldl, List.foldl_map]
  rfl

/-- The 16 fields added with `+16`, trailer included. -/
def frameSum (bs : Frame) : Half := ∑ k, field bs k

theorem toNat_frameSum (bs : Frame) : (frameSum bs).toNat = fieldSum bs % 65536 := by
  rw [frameSum, Fin.sum_univ_def, toNat_sum, List.map_map]
  rfl

theorem frameSum_eq (bs : Frame) : frameSum bs = sum16 bs + field bs 15 := by
  rw [frameSum, Fin.sum_univ_castSucc, sum16_eq]
  rfl

theorem sum16_congr {bs cs : Frame} (h : ∀ k : Fin 15, field bs k.castSucc = field cs k.castSucc) :
    sum16 bs = sum16 cs := by
  rw [sum16_eq, sum16_eq]
  exact Finset.sum_congr rfl fun k _ => h k

/-- Settles O46: the fields 0 to 14 lie in the bytes 0 to 29. -/
theorem sumIsTheNumericSumModulo65536 : Obligations.SumIsTheNumericSumModulo65536 := by
  refine ⟨fun bs => ?_, fun bs cs h => sum16_congr fun k => field_eq_iff.2 ?_⟩
  · rw [sum16_eq, Fin.sum_univ_def, toNat_sum, List.map_map]
    rfl
  · have hk := k.isLt
    exact ⟨h (2 * k.val) (by omega), h (2 * k.val + 1) (by omega)⟩

/-- Settles O47: `0xFFFF` is the field of all ones. -/
theorem checksumIsTheOnesComplement : Obligations.ChecksumIsTheOnesComplement := by
  have complement (s : Half) : 0xFFFF - s = ~~~ s := BitVec.allOnes_sub_eq_not s
  refine ⟨complement, fun bs => complement (sum16 bs), fun bs h => ?_, fun bs h => ?_⟩
  · rw [checksum, h]; rfl
  · rw [checksum, h]; rfl

/-! ## Validity (41_checksum_validator.md R168 to R173) -/

theorem frameValid_iff (bs : Frame) : frameValid bs = true ↔ frameSum bs = 0xFFFF := by
  rw [frameValid, beq_iff_eq, checksum, frameSum_eq, sub_eq_iff_eq_add', eq_comm]

theorem frameSum_eq_FFFF_iff (bs : Frame) : frameSum bs = 0xFFFF ↔ fieldSum bs % 65536 = 0xFFFF := by
  rw [← BitVec.toNat_inj, toNat_frameSum]
  rfl

/-- Settles O48: validity is about the sum with `+16`, which is the number modulo 65536. -/
theorem validExactlyWhenAllFieldsSumToFFFF : Obligations.ValidExactlyWhenAllFieldsSumToFFFF :=
  fun bs => (frameValid_iff bs).trans (frameSum_eq_FFFF_iff bs)

/-- Of two frames that agree outside the fields `ks`, the sums are equal exactly when the sums over `ks` are. -/
theorem frameSum_eq_iff {bs cs : Frame} (ks : Finset (Fin 16)) (h : ∀ l ∉ ks, field cs l = field bs l) :
    frameSum cs = frameSum bs ↔ ∑ k ∈ ks, field cs k = ∑ k ∈ ks, field bs k := by
  have outside : ∑ k ∈ ksᶜ, field cs k = ∑ k ∈ ksᶜ, field bs k :=
    Finset.sum_congr rfl fun l hl => h l (Finset.mem_compl.1 hl)
  rw [frameSum, frameSum, ← Finset.sum_add_sum_compl ks, ← Finset.sum_add_sum_compl ks, outside, add_left_inj]

theorem frameValid_of_frameSum_eq {bs cs : Frame} (hv : frameValid bs = true) (h : frameSum cs = frameSum bs) :
    frameValid cs = true := by
  rw [frameValid_iff] at hv ⊢
  rw [h, hv]

theorem frameSum_eq_of_valid {bs cs : Frame} (hb : frameValid bs = true) (hc : frameValid cs = true) :
    frameSum cs = frameSum bs := by
  rw [frameValid_iff] at hb hc
  rw [hb, hc]

/-- A change of one field alone is caught. -/
theorem not_valid_of_one_field {bs cs : Frame} {k : Fin 16} (hv : frameValid bs = true)
    (hk : field cs k ≠ field bs k) (h : ∀ l, l ≠ k → field cs l = field bs l) : frameValid cs = false := by
  rw [Bool.eq_false_iff]
  intro hc
  have hsum := (frameSum_eq_iff {k} (by simpa using h)).1 (frameSum_eq_of_valid hv hc)
  rw [Finset.sum_singleton, Finset.sum_singleton] at hsum
  exact hk hsum

/-- Settles O49: one byte changes one field, and no other. -/
theorem oneByteChangeIsCaught : Obligations.OneByteChangeIsCaught := by
  intro bs cs j h hv hj hsame
  have others {k l : Fin 16} (hjk : j = 2 * k.val ∨ j = 2 * k.val + 1) (hlk : l ≠ k) :
      field cs l = field bs l := by
    have hval : l.val ≠ k.val := Fin.val_ne_of_ne hlk
    exact field_eq_iff.2 ⟨hsame _ (by omega) (by omega), hsame _ (by omega) (by omega)⟩
  obtain ⟨k, rfl | rfl⟩ := byte_cases h
  · exact not_valid_of_one_field hv (fun hk => hj (field_eq_iff.1 hk).1) fun l => others (.inl rfl)
  · exact not_valid_of_one_field hv (fun hk => hj (field_eq_iff.1 hk).2) fun l => others (.inr rfl)

/-- A change of two fields that keeps their sum is not caught. -/
theorem valid_of_two_fields {bs cs : Frame} {j k : Fin 16} (hjk : j ≠ k) (hv : frameValid bs = true)
    (hsum : field cs j + field cs k = field bs j + field bs k)
    (h : ∀ l, l ≠ j → l ≠ k → field cs l = field bs l) : frameValid cs = true := by
  refine frameValid_of_frameSum_eq hv ((frameSum_eq_iff {j, k} (by simpa using h)).2 ?_)
  rwa [Finset.sum_pair hjk, Finset.sum_pair hjk]

/-- Settles O50: only the sum of the fields counts; an exchange and a compensation keep the sum of the two fields. -/
theorem compensatingChangesAreNotCaught : Obligations.CompensatingChangesAreNotCaught := by
  have valid_iff := validExactlyWhenAllFieldsSumToFFFF
  refine ⟨fun bs cs hv hsum => ?_, fun cs => (valid_iff cs).2, fun bs cs j k hjk hv hsame hchange => ?_⟩
  · exact (valid_iff cs).2 (hsum.trans ((valid_iff bs).1 hv))
  · refine valid_of_two_fields hjk hv ?_ hsame
    obtain ⟨hj, hk⟩ | ⟨d, hj, hk⟩ := hchange
    · rw [hj, hk, add_comm]
    · rw [hj, hk, add_add_sub_cancel]

theorem checksum_marshal_chk (hdr : Half) (P : Vector Half 14) (x y : Half) :
    checksum (marshal { hdr := hdr, slot := P, chk := x }) = checksum (marshal { hdr := hdr, slot := P, chk := y }) := by
  rw [checksum, checksum, sum16_congr fun k => ?_]
  simp [fieldOf]

/-- Settles O51: the checksum is the same with the new trailer, which is field 15. -/
theorem generatorAndValidatorAgree : Obligations.GeneratorAndValidatorAgree := by
  intro hdr P x c hc
  refine ⟨?_, unmarshal_marshal _⟩
  rw [frameValid, beq_iff_eq, field_marshal, checksum_marshal_chk hdr P c x, ← hc]
  rfl

end Sys2Proof.Machine

namespace Sys2Proof.Machine

/-! ## The record at PTR, field by field (41_checksum_validator.md R164, R165) -/

/-- A record is a frame exactly when its 16 fields are. -/
theorem readFrame_eq_some_iff_fields {m : Mem} {a : Nat} {bs : Frame} :
    m.readFrame a = some bs ↔ ∀ k : Fin 16, m.read16 (a + 2 * k.val) = some (field bs k) := by
  have bytes (k : Fin 16) : m.read16 (a + 2 * k.val) = some (field bs k) ↔
      m.read (a + 2 * k.val) = some bs[2 * k.val] ∧ m.read (a + (2 * k.val + 1)) = some bs[2 * k.val + 1] := by
    rw [read16_eq_some, lo8_field, hi8_field, Nat.add_assoc]
  simp only [readFrame_eq_some, bytes]
  constructor
  · exact fun h k => ⟨h _ (by omega), h _ (by omega)⟩
  · intro h j hj
    obtain ⟨k, rfl | rfl⟩ := byte_cases hj
    · exact (h k).1
    · exact (h k).2

/-- The loop of ENCODE adds the fields it reads. -/
theorem sumRecord_of_fields {m : Mem} {a : Nat} {bs : Frame} {ks : List (Fin 15)}
    (h : ∀ k ∈ ks, m.read16 (a + 2 * k.val) = some (field bs k.castSucc)) (acc : Half) :
    sumRecord m a (ks.map Fin.val) acc = some (ks.foldl (fun s k => s + field bs k.castSucc) acc) := by
  induction ks generalizing acc with
  | nil => rfl
  | cons k ks ih =>
    rw [List.map_cons, sumRecord, h k (by simp)]
    exact ih (fun k hk => h k (by simp [hk])) _

/-- The trailer ENCODE computes is the checksum of the frame whose fields 0 to 14 stand in the record. -/
theorem recordTrailer_of_fields {m : Mem} {a : Nat} {bs : Frame}
    (h : ∀ k : Fin 15, m.read16 (a + 2 * k.val) = some (field bs k.castSucc)) :
    recordTrailer m a = some (checksum bs) := by
  have sum := sumRecord_of_fields (ks := List.finRange 15) (fun k _ => h k) 0
  rw [List.map_coe_finRange_eq_range] at sum
  rw [recordTrailer, sum]
  rfl

/-! ## The encoded frame (42_frame_codec.md R192, R193) -/

theorem field_encodedFrame_zero (P : Vector Half 14) : field (encodedFrame P) 0 = 0x4020 := field_marshal _ 0

theorem field_encodedFrame_slot (P : Vector Half 14) {n : Nat} (h : n < 14) :
    field (encodedFrame P) ⟨n + 1, by omega⟩ = P[n] := (field_marshal _ _).trans (fieldOf_slot _ h)

theorem field_encodedFrame_trailer (P : Vector Half 14) : field (encodedFrame P) 15 = checksum (encodedFrame P) :=
  (field_marshal _ 15).trans (checksum_marshal_chk _ P _ _)

theorem frameValid_encodedFrame (P : Vector Half 14) : frameValid (encodedFrame P) = true :=
  (generatorAndValidatorAgree 0x4020 P 0 _ rfl).1

end Sys2Proof.Machine

namespace Sys2Proof.Machine

/-! ## ENCODE of a filled record (42_frame_codec.md R192) -/

/-- MEM after an ENCODE of payload `P` at `a`: the header and the trailer are stored. -/
def encodedMem (m : Mem) (a : Nat) (P : Vector Half 14) : Mem :=
  (m.write16 a Config.header).write16 (a + 30) (checksum (encodedFrame P))

theorem read_encodedMem_outside (m : Mem) {a x : Nat} (P : Vector Half 14) (h0 : x ≠ a) (h1 : x ≠ a + 1)
    (h30 : x ≠ a + 30) (h31 : x ≠ a + 31) : (encodedMem m a P).read x = m.read x := by
  simp [encodedMem, read_write16, h0, h1, h30, h31]

/-- With the header stored, the fields 0 to 14 of a filled record are those of the encoded frame. -/
theorem HoldsPayload.read16_header {s : State} {P : Vector Half 14} (h : HoldsPayload s P) (k : Fin 15) :
    (s.mem.write16 s.ptr Config.header).read16 (s.ptr + 2 * k.val) = some (field (encodedFrame P) k.castSucc) := by
  induction k using Fin.cases with
  | zero => exact (read16_write16 _ _ _).trans (congrArg some (field_encodedFrame_zero P).symm)
  | succ n =>
    have slot : field (encodedFrame P) n.succ.castSucc = P[n.val] := field_encodedFrame_slot P n.isLt
    rw [slot, Fin.val_succ, read16_write16_ne _ _ (by omega)]
    exact h n n.isLt

theorem HoldsPayload.readFrame_encodedMem {s : State} {P : Vector Half 14} (h : HoldsPayload s P) :
    (encodedMem s.mem s.ptr P).readFrame s.ptr = some (encodedFrame P) := by
  rw [readFrame_eq_some_iff_fields]
  intro k
  induction k using Fin.lastCases with
  | last =>
    rw [encodedMem]
    exact (read16_write16 _ _ _).trans (congrArg some (field_encodedFrame_trailer P).symm)
  | cast k =>
    have hk := k.isLt
    rw [encodedMem, Fin.val_castSucc, read16_write16_ne _ _ (by omega)]
    exact h.read16_header k

theorem encodeRecord_of_holdsPayload {s : State} {P : Vector Half 14} (h : HoldsPayload s P) :
    encodeRecord s.mem s.ptr = some (encodedMem s.mem s.ptr P, encodedFrame P) := by
  have frame := h.readFrame_encodedMem
  rw [encodedMem] at frame
  rw [encodeRecord, recordTrailer_of_fields h.read16_header]
  dsimp only
  rw [frame]
  rfl

theorem sendRecord_of_answer {bs : Frame} {s : State} {o : ChOutcome} {e : Env} (h : s.env.nextSend = (o, e)) :
    sendRecord bs s = (s.heard e [.send bs o]).finish (if o = .ok then .ok else .channelError) := by
  rw [sendRecord, chSend_eq, h]
  cases o <;> rfl

theorem execEncode_accepted {s : State} (h : FrameAccepted s) : exec .encode s = encodeBody s :=
  enter_frame h (.inl rfl) _

/-- Settles O30: past its entry ENCODE stores the header and the trailer, then sends the record. -/
theorem encodeWritesTheFrameAndSendsIt : Obligations.EncodeWritesTheFrameAndSendsIt := by
  intro s P o e hs hP hsend
  refine ⟨encodedMem s.mem s.ptr P, ?_, hP.readFrame_encodedMem,
    fun x h0 h1 h30 h31 => read_encodedMem_outside _ P h0 h1 h30 h31⟩
  rw [execEncode_accepted hs, encodeBody, encodeRecord_of_holdsPayload hP]
  exact congrArg Host.Outcome.next (sendRecord_of_answer (s := s.setMem (encodedMem s.mem s.ptr P)) hsend)

/-! ## Every ENCODE that answers a next state (42_frame_codec.md R193) -/

/-- A record that is the encoded frame of a payload holds that payload. -/
theorem holdsPayload_of_readFrame {s : State} {P : Vector Half 14}
    (h : s.mem.readFrame s.ptr = some (encodedFrame P)) : HoldsPayload s P := by
  intro n hn
  rw [← field_encodedFrame_slot P hn]
  exact readFrame_eq_some_iff_fields.1 h ⟨n + 1, by omega⟩

/-- ENCODE reads the whole payload, so a record it encodes holds one. -/
theorem exists_holdsPayload {s : State} {m : Mem} {bs : Frame} (h : encodeRecord s.mem s.ptr = some (m, bs)) :
    ∃ P, HoldsPayload s P := by
  obtain ⟨c, -, rfl, hframe⟩ := encodeRecord_eq_some h
  refine ⟨(unmarshal bs).slot, fun n hn => ?_⟩
  have slot := readFrame_eq_some_iff_fields.1 hframe ⟨n + 1, by omega⟩
  rw [read16_write16_ne _ _ (by dsimp only; omega), read16_write16_ne _ _ (by dsimp only; omega)] at slot
  rw [slot, ← fieldOf_slot _ hn, fieldOf_unmarshal]

/-- An ENCODE that answers a next state with PTR not null was given a filled record. -/
theorem execEncode_filled {s t : State} (hptr : s.ptr ≠ 0) (h : exec .encode s = .next t) :
    FrameAccepted s ∧ ∃ P, HoldsPayload s P := by
  rcases execEncode_cases h with ⟨ha, -⟩ | ⟨-, hl, m, bs, o, e, he, -⟩
  · simp [argInvalid, hptr] at ha
  · have backed : Backed s 32 := (legalExtent_iff_backed (i := .encode) (Nat.succ_ne_zero 31)).1 hl
    exact ⟨⟨hptr, backed⟩, exists_holdsPayload he⟩

theorem agreeOn_of_readFrame {m m' : Mem} {a : Nat} {bs : Frame} (h : m.readFrame a = some bs)
    (h' : m'.readFrame a = some bs) : AgreeOn a 32 m m' := by
  intro x hlo hhi
  obtain ⟨j, rfl⟩ := Nat.exists_eq_add_of_le hlo
  have hj : j < 32 := by omega
  rw [readFrame_eq_some.1 h j hj, readFrame_eq_some.1 h' j hj]

/-- ENCODE of a record that is encoded already stores the bytes that stand there. -/
theorem execEncode_of_encoded {s : State} {P : Vector Half 14} (hs : FrameAccepted s)
    (h : s.mem.readFrame s.ptr = some (encodedFrame P)) :
    ∃ u, exec .encode s = .next u ∧ ∀ x, u.mem.read x = s.mem.read x := by
  obtain ⟨m, hexec, hframe, houtside⟩ :=
    encodeWritesTheFrameAndSendsIt s P _ _ hs (holdsPayload_of_readFrame h) rfl
  refine ⟨_, hexec, fun x => ?_⟩
  by_cases hx : s.ptr ≤ x ∧ x < s.ptr + 32
  · exact agreeOn_of_readFrame h hframe x hx.1 hx.2
  · exact houtside x (by omega) (by omega) (by omega) (by omega)

/-- Settles O31: the record holds some payload, before and after; each of the two ENCODEs writes its frame. -/
theorem encodedRecordIsValidWhateverTheOutcome : Obligations.EncodedRecordIsValidWhateverTheOutcome := by
  intro s t hptr h
  obtain ⟨hs, P, hP⟩ := execEncode_filled hptr h
  obtain ⟨o, e, hsend⟩ : ∃ o e, s.env.nextSend = (o, e) := ⟨_, _, rfl⟩
  obtain ⟨m, hexec, hframe, houtside⟩ := encodeWritesTheFrameAndSendsIt s P o e hs hP hsend
  obtain rfl := Host.Outcome.next.inj (hexec.symm.trans h)
  have valid := frameValid_encodedFrame P
  have header := readFrame_eq_some_iff_fields.1 hframe 0
  rw [field_encodedFrame_zero] at header
  exact ⟨encodedFrame P, o, hframe, rfl, header, valid, (validExactlyWhenAllFieldsSumToFFFF _).1 valid,
    fun j hlo hhi => houtside _ (by omega) (by omega) (by omega) (by omega),
    execEncode_of_encoded ⟨hs.ptr, hs.backed⟩ hframe⟩

end Sys2Proof.Machine

namespace Sys2Proof.Machine

/-! ## DECODE (42_frame_codec.md R194, R195) -/

theorem frameValid_iff_checksum (bs : Frame) : frameValid bs = true ↔ checksum bs = field bs 15 := beq_iff_eq

theorem execDecode_accepted {s : State} (h : FrameAccepted s) : exec .decode s = decodeBody s :=
  enter_frame h (.inr rfl) _

/-- Settles O32: past its entry DECODE makes one receive, and stores and validates the frame received. -/
theorem decodeStoresAndValidatesTheFrame : Obligations.DecodeStoresAndValidatesTheFrame := by
  intro s e hs
  rw [execDecode_accepted hs, decodeBody, chRecv_eq]
  constructor
  · intro bs hrecv
    refine ⟨s.mem.writeBytes s.ptr bs.toList, ?_, readFrame_writeBytes _ _ _,
      fun x hx => read_writeBytes_outside _ _ _ (by simpa using hx)⟩
    simp only [hrecv, frameValid_iff_checksum]
    rfl
  · intro hrecv
    rw [hrecv]
    rfl

/-! ## ENCODE and DECODE over a loopback channel (42_frame_codec.md R197) -/

/-- Settles O33: the frame sent is the encoded frame, which DECODE stores and accepts. -/
theorem loopbackReproducesThePayload : Obligations.LoopbackReproducesThePayload := by
  intro s t v P later more bs hs hP hsend hexec htrace hv hvs
  have hnext : s.env.nextSend = (.ok, { s.env with send := later }) := by rw [Env.nextSend, hsend]
  obtain ⟨m, hencode, hframe, -⟩ := encodeWritesTheFrameAndSendsIt s P _ _ hs hP hnext
  cases hencode.symm.trans hexec
  obtain rfl : encodedFrame P = bs := by simpa using htrace
  have hrecv : v.env.nextRecv = (.ok (encodedFrame P), { v.env with recv := more }) := by rw [hv]; rfl
  obtain ⟨m', hdecode, hframe', houtside⟩ := (decodeStoresAndValidatesTheFrame v _ hvs).1 _ hrecv
  rw [if_pos (field_encodedFrame_trailer P).symm] at hdecode
  have hmem : v.mem = m := by rw [hv]
  refine ⟨rfl, _, hdecode, rfl, hframe'.trans hframe.symm, fun hapart => ?_,
    holdsPayload_of_readFrame (s := { v with mem := m' }) hframe'⟩
  have same : AgreeOn s.ptr 32 m m' := fun x hlo hhi => hmem ▸ houtside x (by omega)
  exact hframe'.trans (hframe.symm.trans same.readFrame.symm)

/-! ## One row of the decode state machine (42_frame_codec.md R196) -/

theorem fsmStep_awaitingHeader {s : State} (h : s.fsm = .awaitingHeader) : fsmStep s = .next (rowRecv s) := by
  rw [fsmStep, h]

theorem fsmStep_validatingChecksum {s : State} (h : s.fsm = .validatingChecksum) : fsmStep s = rowValidate s := by
  rw [fsmStep, h]

theorem fsmStep_accepted {s : State} (h : s.fsm = .accepted) : fsmStep s = .next (s.finish .ok) := by
  rw [fsmStep, h]

theorem fsmStep_rejected {s : State} (h : s.fsm = .rejected) : fsmStep s = .next (s.finish .malformed) := by
  rw [fsmStep, h]

theorem fsmStep_channelError {s : State} (h : s.fsm = .channelError) :
    fsmStep s = .next (s.finish .channelError) := by
  rw [fsmStep, h]

theorem eq_heard_of_chRecv {s t : State} {a : RecvAnswer} (h : chRecv s = (a, t)) : ∃ e, t = s.heard e [.recv a] := by
  obtain ⟨a', e, h'⟩ := chRecv_cases s
  cases h'.symm.trans h
  exact ⟨e, rfl⟩

/-- Settles O53: the rows of IDLE, then row by row. -/
theorem decodeFsmFollowsItsTable : Obligations.DecodeFsmFollowsItsTable := by
  refine ⟨fun s h => enter_invalid _ (argInvalid_of_ptr_zero h .decode), fun s h => enter_frame h (.inr rfl) _,
    fun s t hf hr => ?_, fun s t bs hf hr => ?_, fun s bs hf hbs => ?_, fun s hf => fsmStep_accepted hf,
    fun s hf => fsmStep_rejected hf, fun s hf => fsmStep_channelError hf⟩
  · rw [fsmStep_awaitingHeader hf, rowRecv, hr]
    rfl
  · obtain ⟨e, rfl⟩ := eq_heard_of_chRecv hr
    rw [fsmStep_awaitingHeader hf, rowRecv, hr]
    exact ⟨_, rfl, rfl, readFrame_writeBytes _ _ _, fun x hx => read_writeBytes_outside _ _ _ (by simpa using hx)⟩
  · rw [fsmStep_validatingChecksum hf, rowValidate, hbs]
    rfl

end Sys2Proof.Machine

namespace Sys2Proof.Machine

/-! ## The boundary detector (42_frame_codec.md R191) -/

/-- The header pair `20 40` stands at offset `i` of the window `w`. -/
def HeaderAt (w : List Byte) (i : Nat) : Prop := w[i]? = some 0x20 ∧ w[i + 1]? = some 0x40

theorem headerAt_zero (a b : Byte) (rest : List Byte) : HeaderAt (a :: b :: rest) 0 ↔ a = 0x20 ∧ b = 0x40 := by
  simp [HeaderAt]

theorem headerAt_succ (a : Byte) (w : List Byte) (i : Nat) : HeaderAt (a :: w) (i + 1) ↔ HeaderAt w i := by
  simp [HeaderAt]

/-- A pair takes two bytes. -/
theorem not_headerAt_of_length_le {w : List Byte} {i : Nat} (h : w.length ≤ i + 1) : ¬ HeaderAt w i := by
  rintro ⟨-, hsnd⟩
  rw [List.getElem?_eq_none h] at hsnd
  cases hsnd

theorem findHeader_of_pair {a b : Byte} (rest : List Byte) (h : a = 0x20 ∧ b = 0x40) :
    findHeader (a :: b :: rest) = some 0 := if_pos h

theorem findHeader_of_no_pair {a b : Byte} (rest : List Byte) (h : ¬ (a = 0x20 ∧ b = 0x40)) :
    findHeader (a :: b :: rest) = (findHeader (b :: rest)).map (· + 1) := if_neg h

theorem findHeader_of_length_one {w : List Byte} (h : w.length = 1) : findHeader w = none := by
  obtain ⟨a, rfl⟩ := List.length_eq_one_iff.1 h
  rfl

/-- What the detector answers, either way. -/
theorem findHeader_cases (w : List Byte) :
    (∃ i, findHeader w = some i ∧ HeaderAt w i ∧ ∀ j < i, ¬ HeaderAt w j) ∨
    (findHeader w = none ∧ ∀ j, ¬ HeaderAt w j) := by
  induction w with
  | nil => exact .inr ⟨rfl, fun j => not_headerAt_of_length_le (Nat.zero_le _)⟩
  | cons a w ih =>
    cases w with
    | nil => exact .inr ⟨rfl, fun j => not_headerAt_of_length_le (by simp)⟩
    | cons b rest =>
      by_cases hpair : a = 0x20 ∧ b = 0x40
      · exact .inl ⟨0, findHeader_of_pair rest hpair, (headerAt_zero a b rest).2 hpair, by simp⟩
      · have hzero : ¬ HeaderAt (a :: b :: rest) 0 := mt (headerAt_zero a b rest).1 hpair
        rw [findHeader_of_no_pair rest hpair]
        rcases ih with ⟨i, hi, hat, hbefore⟩ | ⟨hnone, hall⟩
        · refine .inl ⟨i + 1, by rw [hi]; rfl, (headerAt_succ a _ i).2 hat, fun j hj => ?_⟩
          cases j with
          | zero => exact hzero
          | succ j => exact mt (headerAt_succ a _ j).1 (hbefore j (by omega))
        · refine .inr ⟨by rw [hnone]; rfl, fun j => ?_⟩
          cases j with
          | zero => exact hzero
          | succ j => exact mt (headerAt_succ a _ j).1 (hall j)

/-- There is one least offset at most. -/
theorem eq_of_least {p : Nat → Prop} {i k : Nat} (hi : p i) (hbefore : ∀ j < i, ¬ p j) (hk : p k)
    (hbefore' : ∀ j < k, ¬ p j) : i = k :=
  Nat.le_antisymm (Nat.le_of_not_lt fun h => hbefore k h hk) (Nat.le_of_not_lt fun h => hbefore' i h hi)

/-- Settles O34: the two answers of the detector exclude each other, and a least offset is unique. -/
theorem findHeaderIsTheLeastPair : Obligations.FindHeaderIsTheLeastPair := by
  intro w
  rcases findHeader_cases w with ⟨k, hk, pair, before⟩ | ⟨hnone, nowhere⟩
  · refine ⟨fun i => ⟨fun h => ?_, fun ⟨hlo, hhi, hbefore⟩ => ?_⟩, ⟨fun h => ?_, fun h => absurd pair (h k)⟩,
      findHeader_of_length_one⟩
    · obtain rfl : k = i := Option.some.inj (hk.symm.trans h)
      exact ⟨pair.1, pair.2, before⟩
    · rw [hk, eq_of_least (p := HeaderAt w) pair before ⟨hlo, hhi⟩ hbefore]
    · cases hk.symm.trans h
  · refine ⟨fun i => ⟨fun h => ?_, fun ⟨hlo, hhi, _⟩ => absurd ⟨hlo, hhi⟩ (nowhere i)⟩,
      ⟨fun _ => nowhere, fun _ => hnone⟩, findHeader_of_length_one⟩
    cases hnone.symm.trans h

end Sys2Proof.Machine

namespace Sys2Proof.Machine

/-! ## The scan of RESYNC over a written window (42_frame_codec.md R200) -/

theorem testPair_of_written {m : Mem} {a : Nat} {b c : Byte} (hb : m.read a = some b) (hc : m.read (a + 1) = some c) :
    testPair m a = if b = 0x20 ∧ c = 0x40 then .isHeader else .isNot := by
  rw [testPair, hb, hc, ite_and]

theorem scanLoop_isHeader {n : Nat} {s : State} (h : testPair s.mem (s.ptr + s.idx) = .isHeader) :
    scanLoop (n + 1) s = .next ((s.setRes (s.ptr + s.idx)).finish .ok) := by
  rw [scanLoop, h]

theorem scanLoop_isNot {n : Nat} {s : State} (h : testPair s.mem (s.ptr + s.idx) = .isNot) :
    scanLoop (n + 1) s = scanLoop n (s.setIdx (s.idx + 1)) := by
  rw [scanLoop, h]

/-- The end of a RESYNC for an answer of the boundary detector on the window from PTR + IDX upward. -/
def scanEnd (s : State) (found : Option Nat) : State :=
  match found with
  | some i => (s.setRes (s.ptr + s.idx + i)).finish .ok
  | none => (s.setRes 0).finish .notFound

theorem scanEnd_next (s : State) (found : Option Nat) :
    scanEnd (s.setIdx (s.idx + 1)) found = scanEnd s (found.map (· + 1)) := by
  cases found with
  | none => rfl
  | some i => simp [scanEnd, Nat.add_assoc, Nat.add_comm 1]

/-- Offset by offset, the scan is the boundary detector. -/
theorem scanLoop_eq_findHeader {w : List Byte} {s : State} (h : HoldsBytes s.mem (s.ptr + s.idx) w) :
    scanLoop (w.length - 1) s = .next (scanEnd s (findHeader w)) := by
  induction w generalizing s with
  | nil => rfl
  | cons a w ih =>
    cases w with
    | nil => rfl
    | cons b rest =>
      obtain ⟨ha, htail⟩ := holdsBytes_cons.1 h
      obtain ⟨hb, -⟩ := holdsBytes_cons.1 htail
      have htest := testPair_of_written ha hb
      show scanLoop (rest.length + 1) s = _
      by_cases hpair : a = 0x20 ∧ b = 0x40
      · rw [if_pos hpair] at htest
        rw [scanLoop_isHeader htest, findHeader_of_pair rest hpair]
        rfl
      · rw [if_neg hpair] at htest
        rw [scanLoop_isNot htest, findHeader_of_no_pair rest hpair, ← scanEnd_next]
        exact ih (s := s.setIdx (s.idx + 1)) htail

theorem execResync_accepted {s : State} (h : BufferAccepted s) :
    exec .resync s = scanLoop (s.len - 1) (s.setIdx 0) :=
  enter_buffer h (by decide) (by decide) _

/-- Settles O35: past its entry RESYNC is the boundary detector on the window. -/
theorem resyncFindsTheEarliestHeader : Obligations.ResyncFindsTheEarliestHeader := by
  intro s w hs hlen hw
  have scan : exec .resync s = .next (scanEnd (s.setIdx 0) (findHeader w)) := by
    rw [execResync_accepted hs, ← hlen]
    exact scanLoop_eq_findHeader (s := s.setIdx 0) hw
  constructor
  · intro i hi
    rw [scan, hi]
    rfl
  · intro hnone
    rw [scan, hnone]
    rfl

/-! ## The scan of RESYNC over any window (42_frame_codec.md R198) -/

/-- The header pair stands in MEM at `a`. -/
def PairAt (m : Mem) (a : Nat) : Prop := m.read a = some 0x20 ∧ m.read (a + 1) = some 0x40

theorem testPair_eq_isHeader_iff {m : Mem} {a : Nat} : testPair m a = .isHeader ↔ PairAt m a := by
  constructor
  · intro h
    unfold testPair at h
    split at h
    · cases h
    · rename_i b hlo
      split at h
      · rename_i h20
        split at h
        · cases h
        · rename_i c hhi
          split at h
          · rename_i h40
            exact ⟨h20 ▸ hlo, h40 ▸ hhi⟩
          · cases h
      · cases h
  · rintro ⟨hlo, hhi⟩
    exact testPair_of_written hlo hhi

/-- The ends of a scan with `n` offsets to test that answers a next state. -/
inductive ScanEnds (n : Nat) (s : State) : State → Prop where
  | found (k : Nat) (hk : k < n) (pair : PairAt s.mem (s.ptr + s.idx + k))
      (before : ∀ j < k, ¬ PairAt s.mem (s.ptr + s.idx + j)) :
      ScanEnds n s ((s.setRes (s.ptr + s.idx + k)).finish .ok)
  | notFound (nowhere : ∀ j < n, ¬ PairAt s.mem (s.ptr + s.idx + j)) : ScanEnds n s ((s.setRes 0).finish .notFound)

/-- One offset without a pair, before the rest of the scan. -/
theorem ScanEnds.of_next {n : Nat} {s t : State} (hnot : ¬ PairAt s.mem (s.ptr + s.idx))
    (h : ScanEnds n (s.setIdx (s.idx + 1)) t) : ScanEnds (n + 1) s t := by
  have shift (j : Nat) : s.ptr + (s.setIdx (s.idx + 1)).idx + j = s.ptr + s.idx + (j + 1) := by
    rw [setIdx_idx]
    omega
  have earlier {k : Nat} (h : ∀ j < k, ¬ PairAt s.mem (s.ptr + (s.setIdx (s.idx + 1)).idx + j)) :
      ∀ j < k + 1, ¬ PairAt s.mem (s.ptr + s.idx + j)
    | 0, _ => hnot
    | j + 1, hj => shift j ▸ h j (by omega)
  cases h with
  | found k hk pair before =>
    rw [setIdx_mem, setIdx_ptr, shift] at pair
    rw [setIdx_ptr, shift]
    exact .found (k + 1) (by omega) pair (earlier before)
  | notFound nowhere => exact .notFound (earlier nowhere)

theorem scanLoop_ends {n : Nat} {s t : State} (h : scanLoop n s = .next t) : ScanEnds n s t := by
  induction n generalizing s with
  | zero =>
    cases h
    exact .notFound nofun
  | succ n ih =>
    cases htest : testPair s.mem (s.ptr + s.idx) with
    | unwritten =>
      rw [scanLoop, htest] at h
      cases h
    | isHeader =>
      cases (scanLoop_isHeader htest).symm.trans h
      exact .found 0 (by omega) (testPair_eq_isHeader_iff.1 htest) nofun
    | isNot =>
      have hnot : ¬ PairAt s.mem (s.ptr + s.idx) := by
        rw [← testPair_eq_isHeader_iff, htest]
        decide
      exact .of_next hnot (ih ((scanLoop_isNot htest).symm.trans h))

/-- A RESYNC that answers a next state: turned away at its entry, or a scan of the LEN - 1 offsets. -/
theorem execResync_ends {s t : State} (h : exec .resync s = .next t) :
    (argInvalid .resync s = true ∧ t = rejectArgs .resync s) ∨
    (argInvalid .resync s = false ∧ ScanEnds (s.len - 1) (s.setIdx 0) t) := by
  rcases enter_eq_next h with h | ⟨ha, -, h⟩
  · exact .inl h
  · exact .inr ⟨ha, scanLoop_ends h⟩

/-- With PTR not null and LEN not 0 a RESYNC that answers a next state has scanned. -/
theorem execResync_scans {s t : State} (h : exec .resync s = .next t) (hptr : s.ptr ≠ 0) (hlen : s.len ≠ 0) :
    ScanEnds (s.len - 1) (s.setIdx 0) t := by
  rcases execResync_ends h with ⟨ha, -⟩ | ⟨-, hends⟩
  · simp [argInvalid, hptr, hlen] at ha
  · exact hends

/-- The scan reads its window and nothing else of MEM or of the environment. -/
theorem scanLoop_sameWindow {n k : Nat} {s t : State} {m : Mem} (e : Env) (hn : s.idx + n ≤ k - 1)
    (hm : AgreeOn s.ptr k s.mem m) (h : scanLoop n s = .next t) :
    scanLoop n { s with mem := m, env := e } = .next { t with mem := m, env := e } := by
  induction n generalizing s with
  | zero =>
    cases h
    rfl
  | succ n ih =>
    have hpair : testPair m (s.ptr + s.idx) = testPair s.mem (s.ptr + s.idx) := hm.testPair (by omega)
    cases htest : testPair s.mem (s.ptr + s.idx) with
    | unwritten =>
      rw [scanLoop, htest] at h
      cases h
    | isHeader =>
      cases (scanLoop_isHeader htest).symm.trans h
      exact scanLoop_isHeader (s := { s with mem := m, env := e }) (hpair.trans htest)
    | isNot =>
      have hrest := (scanLoop_isNot htest).symm.trans h
      have hn' : (s.setIdx (s.idx + 1)).idx + n ≤ k - 1 := by rw [setIdx_idx]; omega
      exact (scanLoop_isNot (s := { s with mem := m, env := e }) (hpair.trans htest)).trans (ih hn' hm hrest)

theorem execResync_sameWindow {s t : State} {m : Mem} (e : Env) (hm : AgreeOn s.ptr s.len s.mem m)
    (h : exec .resync s = .next t) :
    exec .resync { s with mem := m, env := e } = .next { t with mem := m, env := e } := by
  have hargs : argInvalid .resync { s with mem := m, env := e } = argInvalid .resync s := rfl
  have hlegal : legalExtent .resync { s with mem := m, env := e } = legalExtent .resync s := rfl
  rcases enter_eq_next h with ⟨ha, rfl⟩ | ⟨ha, hl, h⟩
  · exact enter_invalid _ (hargs.trans ha)
  · refine (enter_accepted _ (hargs.trans ha) (hlegal.trans hl)).trans ?_
    exact scanLoop_sameWindow (s := s.setIdx 0) e (by simp) hm h

/-- Settles O36: by the two ends of the scan; the earliest pair is unique. -/
theorem resyncLaws : Obligations.ResyncLaws := by
  intro s t h
  refine ⟨fun k hptr hk hlo hhi hbefore => ?_, fun hptr hlen hnowhere => ?_, fun hok => ?_, fun ho => ?_, ?_,
    fun m e hm => execResync_sameWindow e hm h⟩
  · cases execResync_scans h hptr (by omega) with
    | found i hi pair before =>
      have heq : i = k := eq_of_least (p := fun j => PairAt s.mem (s.ptr + j)) pair before ⟨hlo, hhi⟩ hbefore
      exact ⟨rfl, by rw [← heq]; rfl⟩
    | notFound nowhere => exact absurd ⟨hlo, hhi⟩ (nowhere k (by omega))
  · cases execResync_scans h hptr hlen with
    | found i hi pair before => exact absurd pair (hnowhere i (by omega))
    | notFound => rfl
  · rcases execResync_ends h with ⟨-, rfl⟩ | ⟨-, hends⟩
    · rw [rejectArgs_outcome] at hok
      cases hok
    · cases hends with
      | found k hk pair before =>
        have below (j : Nat) (hj : j < s.ptr + k - s.ptr) : ¬ PairAt s.mem (s.ptr + j) := before j (by omega)
        have inside : s.ptr + k + 2 ≤ s.ptr + s.len := by omega
        exact ⟨pair.1, pair.2, Nat.le_add_right _ _, inside, below⟩
      | notFound => cases hok
  · rcases execResync_ends h with ⟨-, rfl⟩ | ⟨-, hends⟩
    · rfl
    · cases hends with
      | found => rcases ho with ho | ho <;> cases ho
      | notFound => rfl
  · obtain ⟨htrace, henv⟩ := execResync_silent h
    exact ⟨henv, htrace, exec_mem_of_write_or_resync (.inr h)⟩

end Sys2Proof.Machine

namespace Sys2Proof.Machine

/-! ## The end of a command (60_exceptions.md R236) -/

/-- Settles O12: `finish` is this update by definition. -/
theorem finishReportsAndIdles : Obligations.FinishReportsAndIdles := fun _ _ => rfl

/-! ## The outcomes a command can end with (60_exceptions.md R234, R241) -/

/-- The column of the matrix of 60_exceptions.md R241 for each command: the outcomes marked possible. -/
def possibleOutcomes (i : Instr) : List OutcomeCode :=
  match i with
  | .write => [.ok, .timeout, .invalidArgument]
  | .wtr => [.ok, .timeout, .invalidArgument]
  | .encode => [.ok, .channelError, .invalidArgument]
  | .decode => [.ok, .channelError, .malformed, .invalidArgument]
  | .resync => [.ok, .invalidArgument, .notFound]

theorem invalidArgument_mem_possibleOutcomes (i : Instr) : .invalidArgument ∈ possibleOutcomes i := by
  cases i <;> decide

/-- Past its entry a command ends with an outcome of its column other than INVALID_ARGUMENT. -/
theorem commandBody_outcome {i : Instr} {s t : State} (h : commandBody i s = .next t) :
    t.outcome ∈ possibleOutcomes i ∧ t.outcome ≠ .invalidArgument := by
  cases i with
  | write =>
    obtain ⟨o, e, es, rfl | rfl, rfl⟩ := sendLoop_frame h <;> simp [possibleOutcomes]
  | wtr =>
    obtain ⟨o, e, es, bs, ho, -, ht⟩ := recvLoop_frame s.len (s.setIdx 0)
    cases ht.symm.trans h
    rcases ho with rfl | rfl <;> simp [possibleOutcomes]
  | encode =>
    obtain ⟨m, bs, o, e, -, rfl⟩ := encodeBody_frame h
    cases o <;> simp [possibleOutcomes]
  | decode =>
    rcases decodeBody_cases s with ⟨e, ht⟩ | ⟨bs, e, ht⟩ <;> cases ht.symm.trans h
    · simp [possibleOutcomes]
    · cases hv : frameValid bs <;> simp [possibleOutcomes]
  | resync =>
    rcases scanLoop_frame h with rfl | ⟨k, -, rfl⟩ <;> simp [possibleOutcomes]

/-- A command that answers a next state: turned away at its entry, or its body. -/
theorem exec_eq_next_cases {i : Instr} {s t : State} (h : exec i s = .next t) :
    (argInvalid i s = true ∧ t = rejectArgs i s) ∨ commandBody i s = .next t := by
  rw [exec_eq_enter] at h
  exact (enter_eq_next h).imp_right fun ⟨_, _, hbody⟩ => hbody

/-! ## INVALID_ARGUMENT (60_exceptions.md R234) -/

theorem argInvalid_iff {i : Instr} {s : State} :
    argInvalid i s = true ↔ s.ptr = 0 ∨ (i ≠ .encode ∧ i ≠ .decode ∧ s.len = 0) := by
  cases i <;> simp [argInvalid]

/-- Settles O20: the entry turns invalid arguments away, and no body ends INVALID_ARGUMENT. -/
theorem invalidArgumentExactlyOnNullOrZeroLength : Obligations.InvalidArgumentExactlyOnNullOrZeroLength := by
  intro i s
  rw [← argInvalid_iff]
  refine ⟨fun ha => ?_, fun t h ho => ?_⟩
  · rw [exec_eq_enter, enter_invalid _ ha, rejectArgs_eq]
  · rcases exec_eq_next_cases h with ⟨ha, -⟩ | hbody
    · exact ha
    · exact absurd ho (commandBody_outcome hbody).2

/-! ## The matrix of outcomes (60_exceptions.md R241) -/

/-- The impossible entries: a command ends with an outcome of its column. -/
theorem exec_outcome_mem {i : Instr} {s t : State} (h : exec i s = .next t) : t.outcome ∈ possibleOutcomes i := by
  rcases exec_eq_next_cases h with ⟨-, rfl⟩ | hbody
  · rw [rejectArgs_outcome]
    exact invalidArgument_mem_possibleOutcomes i
  · exact (commandBody_outcome hbody).1

/-- The command `i` ends with the outcome `o` in some state. -/
def CanEnd (i : Instr) (o : OutcomeCode) : Prop := ∃ s t, exec i s = .next t ∧ t.outcome = o

/-- After a reset PTR is null, so every command is turned away. -/
theorem canEnd_invalidArgument (i : Instr) : CanEnd i .invalidArgument :=
  ⟨State.reset, _, exec_of_ptr_zero rfl i, rejectArgs_outcome i _⟩

/-- The block after reset with PTR = 1, the bytes `bs` in MEM from there upward, LEN = `len`, LIMIT = `limit` and the
environment `env`. -/
def blockAtOne (len limit : Nat) (bs : List Byte) (env : Env) : State :=
  { State.reset with ptr := 1, len := len, limit := limit, mem := Mem.writeBytes [] 1 bs, env := env }

/-- A frame of zeros with the trailer byte `c` twice: valid for `c = 0xFF`, malformed for `c = 0`. -/
def zeroFrame (c : Byte) : Frame := ((Vector.replicate 32 0).set 30 c).set 31 c

/-- WRITE of one byte. -/
theorem canEnd_write : CanEnd .write .ok ∧ CanEnd .write .timeout :=
  ⟨⟨blockAtOne 1 1 [7] { State.reset.env with txReady := [true], txComplete := [true] }, _, rfl, rfl⟩,
    ⟨blockAtOne 1 1 [7] { State.reset.env with txReady := [false] }, _, rfl, rfl⟩⟩

/-- WTR of one byte. -/
theorem canEnd_wtr : CanEnd .wtr .ok ∧ CanEnd .wtr .timeout :=
  ⟨⟨blockAtOne 1 1 [] { State.reset.env with rxReady := [true], getByte := [7] }, _, rfl, rfl⟩,
    ⟨blockAtOne 1 1 [] { State.reset.env with rxReady := [false] }, _, rfl, rfl⟩⟩

/-- ENCODE of a record of zeros, for each answer of the channel. -/
theorem canEnd_encode : CanEnd .encode .ok ∧ CanEnd .encode .channelError :=
  ⟨⟨blockAtOne 0 0 (zeroFrame 0).toList { State.reset.env with send := [.ok] }, _, rfl, rfl⟩,
    ⟨blockAtOne 0 0 (zeroFrame 0).toList { State.reset.env with send := [.channelError] }, _, rfl, rfl⟩⟩

/-- DECODE of a valid frame, of a channel error and of a frame with a wrong trailer. -/
theorem canEnd_decode : CanEnd .decode .ok ∧ CanEnd .decode .channelError ∧ CanEnd .decode .malformed :=
  ⟨⟨blockAtOne 0 0 [] { State.reset.env with recv := [.ok (zeroFrame 0xFF)] }, _, rfl, rfl⟩,
    ⟨blockAtOne 0 0 [] { State.reset.env with recv := [.channelError] }, _, rfl, rfl⟩,
    ⟨blockAtOne 0 0 [] { State.reset.env with recv := [.ok (zeroFrame 0)] }, _, rfl, rfl⟩⟩

/-- RESYNC of a window with the header pair, and of one with its two bytes exchanged. -/
theorem canEnd_resync : CanEnd .resync .ok ∧ CanEnd .resync .notFound :=
  ⟨⟨blockAtOne 2 0 [0x20, 0x40] State.reset.env, _, rfl, rfl⟩,
    ⟨blockAtOne 2 0 [0x40, 0x20] State.reset.env, _, rfl, rfl⟩⟩

/-- The possible entries: each outcome of a command's column does occur. -/
theorem canEnd_of_mem_possibleOutcomes (i : Instr) : ∀ o ∈ possibleOutcomes i, CanEnd i o := by
  have invalid := canEnd_invalidArgument i
  cases i with
  | write => simpa [possibleOutcomes, invalid] using canEnd_write
  | wtr => simpa [possibleOutcomes, invalid] using canEnd_wtr
  | encode => simpa [possibleOutcomes, invalid] using canEnd_encode
  | decode => simpa [possibleOutcomes, invalid] using canEnd_decode
  | resync => simpa [possibleOutcomes, invalid] using canEnd_resync

/-- A reserved opcode ends ILLEGAL_COMMAND (30_encoding.md R94). -/
theorem hostWrite_reserved {v : Nat} (hv : v % 256 = 0 ∨ 6 ≤ v % 256) (s : State) :
    hostWrite 0 v s = .next (s.finish .illegalCommand) := command_reserved hv s

theorem hostWrite_reserved_outcome {v : Nat} {s t : State} (hv : v % 256 = 0 ∨ 6 ≤ v % 256)
    (h : hostWrite 0 v s = .next t) : t.outcome = .illegalCommand := by
  cases (hostWrite_reserved hv s).symm.trans h
  rfl

/-- Settles O42: column by column of R241. -/
theorem outcomeMatrix : Obligations.OutcomeMatrix :=
  ⟨fun _ _ => exec_outcome_mem, fun _ _ => exec_outcome_mem, fun _ _ => exec_outcome_mem,
    fun _ _ => exec_outcome_mem, fun _ _ => exec_outcome_mem, fun _ _ _ => hostWrite_reserved_outcome,
    canEnd_of_mem_possibleOutcomes .write, canEnd_of_mem_possibleOutcomes .wtr,
    canEnd_of_mem_possibleOutcomes .encode, canEnd_of_mem_possibleOutcomes .decode,
    canEnd_of_mem_possibleOutcomes .resync,
    0, State.reset, _, hostWrite_reserved (.inl rfl) _, rfl⟩

end Sys2Proof.Machine

namespace Sys2Proof.Machine

/-! ## A command that reads an unwritten byte (70_reset_and_hazards.md R262, 93_implementation_defined.md U8; log 5) -/

/-- A 16-bit read has an answer exactly when both its bytes are written. -/
theorem exists_read16_iff {m : Mem} {a : Nat} :
    (∃ w, m.read16 a = some w) ↔ m.read a ≠ none ∧ m.read (a + 1) ≠ none := by
  rw [Mem.read16]
  cases m.read a <;> cases m.read (a + 1) <;> simp

/-- A record holds a payload exactly when each of its 28 payload bytes is written. -/
theorem exists_holdsPayload_iff {s : State} :
    (∃ P, HoldsPayload s P) ↔ ∀ j, 2 ≤ j → j < 30 → s.mem.read (s.ptr + j) ≠ none := by
  constructor
  · rintro ⟨P, hP⟩ j hlo hhi
    obtain ⟨n, hn, hj⟩ : ∃ n < 14, j = 2 * (n + 1) ∨ j = 2 * (n + 1) + 1 := ⟨j / 2 - 1, by omega, by omega⟩
    obtain ⟨hfirst, hsecond⟩ := exists_read16_iff.1 ⟨_, hP n hn⟩
    rcases hj with rfl | rfl
    · exact hfirst
    · exact hsecond
  · intro hwritten
    have slot (n : Fin 14) : ∃ w, s.mem.read16 (s.ptr + 2 * (n.val + 1)) = some w :=
      exists_read16_iff.2 ⟨hwritten _ (by omega) (by omega), hwritten (2 * (n.val + 1) + 1) (by omega) (by omega)⟩
    choose w hw using slot
    exact ⟨Vector.ofFn w, fun n hn => by rw [hw ⟨n, hn⟩, Vector.getElem_ofFn]⟩

/-- The transformation of ENCODE stops exactly when there is no payload to encode. -/
theorem encodeRecord_eq_none_iff {s : State} : encodeRecord s.mem s.ptr = none ↔ ¬ ∃ P, HoldsPayload s P := by
  constructor
  · rintro hnone ⟨P, hP⟩
    rw [encodeRecord_of_holdsPayload hP] at hnone
    cases hnone
  · intro hP
    rw [Option.eq_none_iff_forall_ne_some]
    exact fun _ h => hP (exists_holdsPayload h)

theorem encodeBody_unwritten_iff {s : State} :
    encodeBody s = .refused .unwrittenByte ↔ encodeRecord s.mem s.ptr = none := by
  rw [encodeBody]
  cases encodeRecord s.mem s.ptr <;> simp

/-- Header and trailer are stored before they are read, so only the payload decides (42_frame_codec.md R192). -/
theorem execEncode_unwritten_iff {s : State} (h : FrameAccepted s) :
    (∃ j, 2 ≤ j ∧ j < 30 ∧ s.mem.read (s.ptr + j) = none) ↔ exec .encode s = .refused .unwrittenByte := by
  rw [execEncode_accepted h, encodeBody_unwritten_iff, encodeRecord_eq_none_iff, exists_holdsPayload_iff]
  push Not
  rfl

theorem readyAfter_cons (k : Nat) (ks : List Nat) (later : List Bool) :
    readyAfter (k :: ks) ++ later = List.replicate k false ++ true :: (readyAfter ks ++ later) := by
  simp [readyAfter]

/-- One byte of WRITE, each of whose waits is ready on some poll up to LIMIT. -/
theorem sendLoop_readyByte {n k c : Nat} {b : Byte} {s : State} {rdy done : List Bool} (hk : k < s.limit)
    (hc : c < s.limit) (hb : s.mem.read (s.ptr + s.idx) = some b)
    (hrdy : s.env.txReady = List.replicate k false ++ true :: rdy)
    (hdone : s.env.txComplete = List.replicate c false ++ true :: done) :
    ∃ es, sendLoop (n + 1) s =
      sendLoop n (((s.heard { s.env with txReady := rdy, txComplete := done } es).setCnt c).setIdx (s.idx + 1)) := by
  have ready := poll_of_firstTrue (p := .txReady) hk hrdy
  refine ⟨readyPolls .txReady k ++ .put b :: readyPolls .txComplete c, ?_⟩
  rw [sendLoop_sent ready hb (poll_of_firstTrue (p := .txComplete) hc hdone)]
  simp [putByte_eq_heard]
  rfl

/-- The loop of WRITE comes to an unwritten byte, by induction on the bytes sent before it. -/
theorem sendLoop_refused_at_unwritten {n k : Nat} {rs cs : List Nat} {s : State} {rdy done : List Bool}
    (hn : cs.length < n) (hlen : rs.length = cs.length) (hrs : ∀ r ∈ k :: rs, r < s.limit)
    (hcs : ∀ c ∈ cs, c < s.limit) (hrdy : s.env.txReady = readyAfter (k :: rs) ++ rdy)
    (hdone : s.env.txComplete = readyAfter cs ++ done)
    (hwritten : ∀ j < cs.length, s.mem.read (s.ptr + s.idx + j) ≠ none)
    (hnone : s.mem.read (s.ptr + s.idx + cs.length) = none) : sendLoop n s = .refused .unwrittenByte := by
  induction cs generalizing n k rs s with
  | nil =>
    obtain ⟨n, rfl⟩ := Nat.exists_eq_add_one.2 hn
    rw [readyAfter_cons] at hrdy
    exact sendLoop_unwritten (poll_of_firstTrue (p := .txReady) (hrs k (by simp)) hrdy) hnone
  | cons c cs ih =>
    obtain ⟨n, rfl⟩ := Nat.exists_eq_add_one.2 (Nat.zero_lt_of_lt hn)
    obtain ⟨r, rs, rfl⟩ := List.exists_cons_of_length_eq_add_one hlen
    obtain ⟨hk, hrs⟩ := List.forall_mem_cons.1 hrs
    obtain ⟨hc, hcs⟩ := List.forall_mem_cons.1 hcs
    obtain ⟨b, hb⟩ := Option.ne_none_iff_exists'.1 (hwritten 0 (Nat.succ_pos _))
    rw [readyAfter_cons] at hrdy hdone
    obtain ⟨es, hsent⟩ := sendLoop_readyByte (n := n) hk hc hb hrdy hdone
    have shift (j : Nat) : s.ptr + (s.idx + 1) + j = s.ptr + s.idx + (j + 1) := by omega
    rw [hsent]
    refine ih (Nat.lt_of_succ_lt_succ hn) (Nat.succ.inj hlen) hrs hcs rfl rfl (fun j hj => ?_) ?_
    · rw [setIdx_idx]
      exact shift j ▸ hwritten (j + 1) (Nat.succ_lt_succ hj)
    · rw [setIdx_idx]
      exact shift cs.length ▸ hnone

theorem execWrite_refused_at_unwritten {s : State} {rs cs : List Nat} {rdy done : List Bool} (h : BufferAccepted s)
    (hn : cs.length < s.len) (hlen : rs.length = cs.length + 1) (hrs : ∀ k ∈ rs, k < s.limit)
    (hcs : ∀ k ∈ cs, k < s.limit) (hrdy : s.env.txReady = readyAfter rs ++ rdy)
    (hdone : s.env.txComplete = readyAfter cs ++ done)
    (hwritten : ∀ j < cs.length, s.mem.read (s.ptr + j) ≠ none) (hnone : s.mem.read (s.ptr + cs.length) = none) :
    exec .write s = .refused .unwrittenByte := by
  obtain ⟨k, rs, rfl⟩ := List.exists_cons_of_length_eq_add_one hlen
  rw [execWrite_accepted h]
  exact sendLoop_refused_at_unwritten (s := s.setIdx 0) hn (Nat.succ.inj hlen) hrs hcs hrdy hdone hwritten hnone

/-- The second byte of a pair is read only after a `0x20` (log 11). -/
theorem testPair_eq_unwritten_iff {m : Mem} {a : Nat} :
    testPair m a = .unwritten ↔ m.read a = none ∨ m.read a = some 0x20 ∧ m.read (a + 1) = none := by
  rw [testPair]
  cases hb : m.read a with
  | none => simp
  | some b =>
    by_cases h20 : b = 0x20#8
    · cases hc : m.read (a + 1) with
      | none => simp [h20]
      | some c => by_cases h40 : c = 0x40#8 <;> simp [h20, h40]
    · simp [h20]

theorem scanLoop_unwritten {n : Nat} {s : State} (h : testPair s.mem (s.ptr + s.idx) = .unwritten) :
    scanLoop (n + 1) s = .refused .unwrittenByte := by
  rw [scanLoop, h]

/-- The scan of RESYNC is refused at a pair with an unwritten byte that no header pair precedes, by induction on its
offset `k`; when the pair at `k - 1` shares that byte it is refused there already. -/
theorem scanLoop_refused_at_unwritten {n k : Nat} {s : State} (hk : k < n)
    (hbefore : ∀ j < k, ¬ PairAt s.mem (s.ptr + s.idx + j))
    (hpair : testPair s.mem (s.ptr + s.idx + k) = .unwritten) : scanLoop n s = .refused .unwrittenByte := by
  induction k generalizing n s with
  | zero =>
    obtain ⟨n, rfl⟩ := Nat.exists_eq_add_one.2 hk
    exact scanLoop_unwritten hpair
  | succ k ih =>
    obtain ⟨n, rfl⟩ := Nat.exists_eq_add_one.2 (Nat.zero_lt_of_lt hk)
    cases htest : testPair s.mem (s.ptr + s.idx) with
    | unwritten => exact scanLoop_unwritten htest
    | isHeader => exact absurd (testPair_eq_isHeader_iff.1 htest) (hbefore 0 (Nat.succ_pos k))
    | isNot =>
      have shift (j : Nat) : s.ptr + (s.idx + 1) + j = s.ptr + s.idx + (j + 1) := by omega
      rw [scanLoop_isNot htest]
      refine ih (s := s.setIdx (s.idx + 1)) (Nat.lt_of_succ_lt_succ hk) (fun j hj => ?_) ?_
      · rw [setIdx_idx]
        exact shift j ▸ hbefore (j + 1) (Nat.succ_lt_succ hj)
      · rw [setIdx_idx]
        exact shift k ▸ hpair

theorem execResync_refused_at_unwritten {s : State} {k : Nat} (h : BufferAccepted s) (hk : k + 1 < s.len)
    (hbefore : ∀ j < k, ¬ PairAt s.mem (s.ptr + j)) (hpair : testPair s.mem (s.ptr + k) = .unwritten) :
    exec .resync s = .refused .unwrittenByte := by
  rw [execResync_accepted h]
  exact scanLoop_refused_at_unwritten (s := s.setIdx 0) (Nat.lt_sub_of_add_lt hk) hbefore hpair

/-- Past its entry a WTR or a DECODE always answers a next state. -/
theorem exists_commandBody_eq_next {i : Instr} (hi : i = .wtr ∨ i = .decode) (s : State) :
    ∃ t, commandBody i s = .next t := by
  rcases hi with rfl | rfl
  · obtain ⟨o, e, es, bs, -, -, h⟩ := recvLoop_frame s.len (s.setIdx 0)
    exact ⟨_, h⟩
  · rcases decodeBody_cases s with ⟨e, h⟩ | ⟨bs, e, h⟩
    · exact ⟨_, h⟩
    · exact ⟨_, h⟩

/-- The entry refuses nothing but an extent. -/
theorem exec_ne_unwrittenByte {i : Instr} {s t : State} (hbody : commandBody i s = .next t) :
    exec i s ≠ .refused .unwrittenByte := by
  rw [exec_eq_enter, hbody]
  cases ha : argInvalid i s with
  | true => rw [enter_invalid _ ha]; nofun
  | false =>
    cases hl : legalExtent i s with
    | true => rw [enter_accepted _ ha hl]; nofun
    | false => rw [enter_illegal _ ha hl]; nofun

/-- Settles O22: ENCODE by its payload, WRITE and RESYNC by what their loops come to; WTR and DECODE have no other end
past their entry than a next state. -/
theorem readingAnUnwrittenByteIsRefused : Obligations.ReadingAnUnwrittenByteIsRefused := by
  refine ⟨fun s h => execEncode_unwritten_iff h, ?_, ?_, fun i s hi => ?_⟩
  · rintro s n rs cs rdy done h hn hrs rfl hrsLimit hcsLimit hrdy hdone hwritten hnone
    exact execWrite_refused_at_unwritten h hn hrs hrsLimit hcsLimit hrdy hdone hwritten hnone
  · intro s k h hk _ hbefore hpair
    exact execResync_refused_at_unwritten h hk hbefore (testPair_eq_unwritten_iff.2 hpair)
  · obtain ⟨t, ht⟩ := exists_commandBody_eq_next hi s
    exact exec_ne_unwrittenByte ht

end Sys2Proof.Machine

namespace Sys2Proof.Machine

/-! ## Reset between commands (70_reset_and_hazards.md R260, R261) -/

/-- An idle block does nothing of itself. -/
theorem fsmStep_idle {s : State} (h : s.fsm = .idle) : fsmStep s = .next s := by
  rw [fsmStep, h]

/-- In a block that is reset there is nothing left for `finish` to clear. -/
theorem finish_blockReset (s : State) (o : OutcomeCode) : s.blockReset.finish o = { s.blockReset with outcome := o } :=
  rfl

/-- RES is 0 after reset, so that RESYNC clears it is not seen. -/
theorem rejectArgs_blockReset (i : Instr) (s : State) :
    rejectArgs i s.blockReset = s.blockReset.finish .invalidArgument := by
  cases i <;> rfl

theorem exec_blockReset (i : Instr) (s : State) :
    exec i s.blockReset = .next { s.blockReset with outcome := .invalidArgument } := by
  rw [exec_of_ptr_zero (blockReset_ptr s), rejectArgs_blockReset, finish_blockReset]

theorem hostWrite_reserved_blockReset {v : Nat} (hv : v % 256 = 0 ∨ 6 ≤ v % 256) (s : State) :
    hostWrite 0 v s.blockReset = .next { s.blockReset with outcome := .illegalCommand } := by
  rw [hostWrite_reserved hv, finish_blockReset]

/-- Settles O13: the step is `blockReset`, after which PTR is null and the block is idle. -/
theorem resetSetsEveryRegister : Obligations.ResetSetsEveryRegister := by
  intro s rest hscript
  have hstep : step s = .next (State.blockReset { s with script := rest }) := step_cons hscript
  exact ⟨_, hstep, rfl, rfl, rfl, rfl, rfl, rfl, rfl, rfl, rfl, rfl, rfl, rfl, rfl, rfl, rfl,
    fsmStep_idle (blockReset_fsm _), fun i => exec_blockReset i _, fun v hv => hostWrite_reserved_blockReset hv _⟩

/-! ## Reset during a command (70_reset_and_hazards.md R263) -/

/-- From any state, the invariant or not, rows keep what one row keeps. -/
theorem fsmRun_rowKeeps {k : Nat} {s t : State} (h : fsmRun k s = .next t) : RowKeeps s t := by
  induction k generalizing s with
  | zero => cases h; exact .refl _
  | succ k ih =>
    obtain ⟨u, hu, ht⟩ := onNext_eq_next h
    exact (fsmStep_keeps hu).trans (ih ht)

theorem commandRows_rowKeeps {i : Instr} {k : Nat} {s t : State} (h : onNext (fsmStart i s) (fsmRun k) = .next t) :
    RowKeeps s t := by
  obtain ⟨u, hu, ht⟩ := onNext_eq_next h
  exact (fsmStart_keeps hu).trans (fsmRun_rowKeeps ht)

/-- The state in which reset finds a command is reset as any other. -/
theorem commandThenReset_of_rows {v k : Nat} {i : Instr} {s u : State} (hdec : decode (opcodeOf v) = .ok i)
    (h : onNext (fsmStart i s) (fsmRun k) = .next u) : commandThenReset v k s = .next u.blockReset := by
  rw [commandThenReset, hdec]
  dsimp only
  rw [abandonAfter, h, onNext_next]

/-- Settles O15: the step is `blockReset` of what the rows left, and no row changes the script or the parameters. -/
theorem resetAbandonsARunningCommand : Obligations.ResetAbandonsARunningCommand := by
  intro s u v k i rest hscript hdec h
  have keeps : RowKeeps { s with script := rest } u := commandRows_rowKeeps h
  have hstep : step s = .next u.blockReset := (step_cons hscript).trans (commandThenReset_of_rows hdec h)
  have hlimit : u.blockReset.limit = s.cfg.limitReset := congrArg Params.limitReset keeps.cfg
  exact ⟨_, hstep, rfl, rfl, rfl, keeps.script, rfl, rfl, rfl, rfl, hlimit, rfl, rfl, rfl, rfl⟩

end Sys2Proof.Machine
